-- ==== Sys2Proof/Word.lean ====
section
/-! DEFINITION. Word.lean: the bit-vector types the spec's values are written in (00_scope.md R8). -/

namespace Sys2Proof

/-- A word: 32 bits, unsigned (00_scope.md R8). Accumulator words, schedule words and working variables. -/
abbrev Word := BitVec 32

/-- A byte, the document's "octet": 8 bits (00_scope.md R8). -/
abbrev Byte := BitVec 8

/-- A command word `CW`: 32 bits (30_encoding.md R70, R71). -/
abbrev CmdWord := BitVec 32

end Sys2Proof
end

