-- ==== Sys2Proof/Config.lean ====
section
/-! DEFINITION. Config.lean: the implementation parameters of 00_scope.md R5 and the five initial constants
of 10_state.md R33. The spec leaves no value open, so there is no free value here. -/

namespace Sys2Proof.Config

/-- `BLOCK`: the staging buffer and one compression input are 64 bytes (00_scope.md R5). -/
abbrev block : Nat := 64

/-- `NSCHED` less the 16 words loaded from the block: the words `Expand` adds (00_scope.md R5, 43_compression_round.md R142). -/
abbrev expandedWords : Nat := 64

/-- `2^LEN_W`: a payload length is below it (00_scope.md R5, 30_encoding.md R76). -/
abbrev lenBound : Nat := 2 ^ 24

/-- `MAXBYTES + 1 = 2^61`: a message shorter than this has a bit length of at most 64 bits (00_scope.md R5,
60_exceptions.md R173). -/
abbrev byteLimit : Nat := 2 ^ 61

/-- `H[0]` of the initial configuration (10_state.md R33; log 8). -/
abbrev iv0 : Word := 0x67452301
/-- `H[1]` of the initial configuration (10_state.md R33; log 8). -/
abbrev iv1 : Word := 0xEFCDAB89
/-- `H[2]` of the initial configuration (10_state.md R33; log 8). -/
abbrev iv2 : Word := 0x98BADCFE
/-- `H[3]` of the initial configuration (10_state.md R33; log 8). -/
abbrev iv3 : Word := 0x10325476
/-- `H[4]` of the initial configuration (10_state.md R33; log 8). -/
abbrev iv4 : Word := 0xC3D2E1F0

end Sys2Proof.Config
end

