-- ==== Sys2Proof/Syntax.lean ====
section
/-! DEFINITION. Syntax.lean: the eight commands (30_encoding.md R73, R80), one constructor per row of
spec/opcode_table.json. -/

namespace Sys2Proof

/-- A decoded command, with the operands `Decode` gives it (30_encoding.md R80): `uc` is the hex-case bit
`FLG[0]` (R75), `len` the payload length `LEN` (R76), `sel` the status select `SEL` (R77). The reserved flag
bits `FLG[3:1]` are ignored by the engine and are no part of the command (R75; log 9). -/
inductive Instr where
  /-- INIT: start a new message (40_stream_commands.md R100). -/
  | init (uc : Bool)
  /-- UPDATE: append a fragment of `len` bytes (40_stream_commands.md R101). -/
  | update (len : Nat)
  /-- FINISH: pad, compress, close the stream (40_stream_commands.md R105). -/
  | finish
  /-- RDDIG: read the 20-byte digest (41_output_commands.md R122). -/
  | rddig
  /-- RDTEXT: read the digest as 40 characters (41_output_commands.md R123). -/
  | rdtext
  /-- HASHT: digest `len` bytes, return text (42_oneshot_commands.md R130). -/
  | hasht (uc : Bool) (len : Nat)
  /-- HASHB: digest `len` bytes, return 20 bytes (42_oneshot_commands.md R131). -/
  | hashb (len : Nat)
  /-- RDSR: read one status value (41_output_commands.md R124). -/
  | rdsr (sel : Nat)
deriving DecidableEq, Repr

end Sys2Proof
end

