-- ==== Sys2Proof/WellFormed.lean ====
section
/-! DEFINITION. WellFormed.lean: the operands a command word can carry (30_encoding.md R76, R77). -/

namespace Sys2Proof

/-- `LEN` is an unsigned 24-bit integer (30_encoding.md R76); `SEL` is 0 to 3 (R77). The flag operand is one bit
by its type. -/
def Instr.wellFormed : Instr → Bool
  | .init _ => true
  | .update len => decide (len < Config.lenBound)
  | .finish => true
  | .rddig => true
  | .rdtext => true
  | .hasht _ len => decide (len < Config.lenBound)
  | .hashb len => decide (len < Config.lenBound)
  | .rdsr sel => decide (sel ≤ 3)

end Sys2Proof
end

