-- ==== Sys2Proof/Decode.lean ====
section
/-! DEFINITION. Decode.lean: the command word's fields, `PayloadLen`, `Decode` and the encoder
(30_encoding.md R71 to R81). -/

namespace Sys2Proof

/-- `OP = CW[31:28]` (30_encoding.md R71). -/
def opField (w : CmdWord) : BitVec 4 := w.extractLsb' 28 4

/-- `FLG = CW[27:24]` (30_encoding.md R71). -/
def flgField (w : CmdWord) : BitVec 4 := w.extractLsb' 24 4

/-- `ARG = CW[23:0]` (30_encoding.md R71). -/
def argField (w : CmdWord) : BitVec 24 := w.extractLsb' 0 24

/-- `PayloadLen(CW)`: `ARG` for the opcodes 2, 6 and 7, else 0; it looks at nothing but `OP` and `ARG`
(30_encoding.md R74). -/
def payloadLen (w : CmdWord) : Nat :=
  if opField w = 2 ∨ opField w = 6 ∨ opField w = 7 then (argField w).toNat else 0

/-- Why a word selects no row of the opcode map: each of these is the engine's `ILLEGAL` (30_encoding.md R78, R79,
60_exceptions.md R171). -/
inductive DecodeReject where
  /-- `OP` is 0x0 or 0x9 to 0xF (R78). -/
  | reservedOpcode
  /-- `FLG` is not 0 in a command that has no flags operand (R75, R79). -/
  | flagsNotZero
  /-- `ARG` is not 0 in a command that has no `ARG` operand (R77, R79). -/
  | argNotZero
  /-- `ARG` is above 3 in RDSR (R77). -/
  | selectAboveThree
  /-- The bytes are not the four of one command word (R70). -/
  | notOneWord
deriving DecidableEq, Repr

/-- The form `L` and `S` check: `FLG` must be 0 (30_encoding.md R72). -/
def decodeNoFlags (flg : BitVec 4) (i : Instr) : Except DecodeReject Instr :=
  if flg = 0 then .ok i else .error .flagsNotZero

/-- The form `F` check: `ARG` must be 0 (30_encoding.md R72). -/
def decodeNoArg (arg : BitVec 24) (i : Instr) : Except DecodeReject Instr :=
  if arg = 0 then .ok i else .error .argNotZero

/-- The form `N` check: `FLG` and `ARG` must be 0 (30_encoding.md R72). -/
def decodeNoOperand (flg : BitVec 4) (arg : BitVec 24) (i : Instr) : Except DecodeReject Instr :=
  if flg = 0 then decodeNoArg arg i else .error .flagsNotZero

/-- The form `S` check: `FLG` must be 0 and `ARG` at most 3 (30_encoding.md R72, R77). -/
def decodeSelect (flg : BitVec 4) (arg : BitVec 24) : Except DecodeReject Instr :=
  if arg.toNat ≤ 3 then decodeNoFlags flg (.rdsr arg.toNat) else .error .selectAboveThree

/-- `Decode`, total on 32-bit words (30_encoding.md R80): a command, or the reason the word is `ILLEGAL`. -/
def decode (w : CmdWord) : Except DecodeReject Instr :=
  if opField w = 1 then decodeNoArg (argField w) (.init ((flgField w).getLsbD 0))
  else if opField w = 2 then decodeNoFlags (flgField w) (.update (argField w).toNat)
  else if opField w = 3 then decodeNoOperand (flgField w) (argField w) .finish
  else if opField w = 4 then decodeNoOperand (flgField w) (argField w) .rddig
  else if opField w = 5 then decodeNoOperand (flgField w) (argField w) .rdtext
  else if opField w = 6 then .ok (.hasht ((flgField w).getLsbD 0) (argField w).toNat)
  else if opField w = 7 then decodeNoFlags (flgField w) (.hashb (argField w).toNat)
  else if opField w = 8 then decodeSelect (flgField w) (argField w)
  else .error .reservedOpcode

/-- A command word over a byte-wide path: four bytes, the most significant first (20_memory.md R51, R56). Total on
any bytes. -/
def decodeBytes : List Byte → Except DecodeReject Instr
  | [b0, b1, b2, b3] => decode (b0 ++ b1 ++ b2 ++ b3)
  | _ => .error .notOneWord

/-- `CW = (OP << 28) or (flags << 24) or ARG` (30_encoding.md R81). -/
def cmdWord (op flg : BitVec 4) (arg : BitVec 24) : CmdWord := op ++ flg ++ arg

/-- The hex-case bit as a flags operand, the reserved flag bits 0, as R75 asks of a host (30_encoding.md R75). -/
def flagsOf (uc : Bool) : BitVec 4 := if uc then 1 else 0

/-- The command word of a command (30_encoding.md R73, R81). -/
def encode : Instr → CmdWord
  | .init uc => cmdWord 1 (flagsOf uc) 0
  | .update len => cmdWord 2 0 (BitVec.ofNat 24 len)
  | .finish => cmdWord 3 0 0
  | .rddig => cmdWord 4 0 0
  | .rdtext => cmdWord 5 0 0
  | .hasht uc len => cmdWord 6 (flagsOf uc) (BitVec.ofNat 24 len)
  | .hashb len => cmdWord 7 0 (BitVec.ofNat 24 len)
  | .rdsr sel => cmdWord 8 0 (BitVec.ofNat 24 sel)

/-- A command's word over a byte-wide path, most significant byte first (20_memory.md R56). -/
def encodeBytes (i : Instr) : List Byte :=
  [(encode i).extractLsb' 24 8, (encode i).extractLsb' 16 8, (encode i).extractLsb' 8 8, (encode i).extractLsb' 0 8]

/-- The payload bytes a command owns, from its operands (30_encoding.md R72, R74). -/
def Instr.payloadLen : Instr → Nat
  | .init _ => 0
  | .update len => len
  | .finish => 0
  | .rddig => 0
  | .rdtext => 0
  | .hasht _ len => len
  | .hashb len => len
  | .rdsr _ => 0

/-- One row of the opcode map's `match` and `mask` columns, with the opcode it stands under (30_encoding.md R73). -/
structure OpcodeRow where
  mnemonic : String
  matchBits : CmdWord
  mask : CmdWord
deriving DecidableEq, Repr

/-- A word selects a row when `(w and mask) = match` (30_encoding.md R73). -/
def OpcodeRow.selects (r : OpcodeRow) (w : CmdWord) : Bool := w &&& r.mask == r.matchBits

/-- The opcode map (30_encoding.md R73). -/
def opcodeRows : List OpcodeRow :=
  [⟨"INIT", 0x10000000, 0xF0FFFFFF⟩, ⟨"UPDATE", 0x20000000, 0xFF000000⟩, ⟨"FINISH", 0x30000000, 0xFFFFFFFF⟩,
   ⟨"RDDIG", 0x40000000, 0xFFFFFFFF⟩, ⟨"RDTEXT", 0x50000000, 0xFFFFFFFF⟩, ⟨"HASHT", 0x60000000, 0xF0000000⟩,
   ⟨"HASHB", 0x70000000, 0xFF000000⟩, ⟨"RDSR", 0x80000000, 0xFFFFFFFC⟩]

/-- The mnemonic of a command (30_encoding.md R73). -/
def Instr.mnemonic : Instr → String
  | .init _ => "INIT"
  | .update _ => "UPDATE"
  | .finish => "FINISH"
  | .rddig => "RDDIG"
  | .rdtext => "RDTEXT"
  | .hasht _ _ => "HASHT"
  | .hashb _ => "HASHB"
  | .rdsr _ => "RDSR"

/-- The instruction this decoder reads from a table row's bits: every row is one 32-bit command word, which `CMD`
carries whole (20_memory.md R51). -/
def decodeTableWord (nbits w : Nat) : Option Instr :=
  if nbits ≤ 32 then (decode (BitVec.ofNat 32 w)).toOption else none

end Sys2Proof
end

