-- ==== Sys2Proof/Machine/State.lean ====
section
/-! DEFINITION. Machine/State.lean: the state (10_state.md R20), the port streams, the reasons a step can stop,
and the state after reset (70_reset_and_hazards.md R190). -/

namespace Sys2Proof.Machine

/-- The accumulator `H[0..4]`, five 32-bit words (10_state.md R21). -/
structure Accumulator where
  h0 : Word
  h1 : Word
  h2 : Word
  h3 : Word
  h4 : Word
deriving DecidableEq, Repr

/-- The initial constants of 10_state.md R33 (log 8). -/
def Accumulator.initial : Accumulator :=
  ⟨Config.iv0, Config.iv1, Config.iv2, Config.iv3, Config.iv4⟩

/-- The lifecycle bit `PHASE` (10_state.md R26). -/
inductive Phase where
  /-- `OPEN` (0): the stream accepts UPDATE and FINISH. -/
  | opened
  /-- `FINAL` (1): the digest is available and the stream is closed. -/
  | final
deriving DecidableEq, Repr

/-- The response codes (60_exceptions.md R171); codes 4 to 15 are never produced (20_memory.md R67). -/
inductive Code where
  /-- 0: the command executed. -/
  | ok
  /-- 1: the word selects no row of the opcode map. -/
  | illegal
  /-- 2: the command is not allowed in the current phase. -/
  | phase
  /-- 3: the message would reach 2^61 bytes. -/
  | overflow
deriving DecidableEq, Repr

/-- What `RSP` carries for one command: a code, then data bytes (20_memory.md R67). -/
structure Response where
  code : Code
  data : List Byte
deriving DecidableEq, Repr

/-- What the host and the reset input offer the engine, in order (20_memory.md R51, 70_reset_and_hazards.md R193;
log 1, log 5). -/
inductive HostInput where
  /-- A command word on `CMD`. -/
  | command (w : CmdWord)
  /-- `RST` asserted and released between two commands. -/
  | reset
deriving DecidableEq, Repr

/-- The staging buffer's contents as (address, byte) cells in canonical form: addresses strictly rising, no cell
holding what an unlisted address reads as (10_state.md R22; log 7). -/
abbrev Memory := List Host.Cell

/-- The state: the one context of 10_state.md R20, and what stands on the three ports (20_memory.md R51, R52, R67). -/
structure State where
  /-- `H[0..4]`, the running hash accumulator (R21). -/
  h : Accumulator
  /-- `BUF[0..63]`, the staging buffer (R22). -/
  buf : Memory
  /-- `COUNT`, message bytes accepted since the last INIT (R23). -/
  count : BitVec 64
  /-- `BLOCKS`, compressions since the last INIT, modulo 2^32 (R24). -/
  blocks : BitVec 32
  /-- `UC`, the hex-case flag: true is 1, uppercase (R25). -/
  uc : Bool
  /-- `PHASE` (R26). -/
  phase : Phase
  /-- `ERR`, the first refusal's code since the last INIT, HASHT, HASHB or reset (R27). -/
  err : BitVec 4
  /-- The model's own: command words and resets offered and not yet taken, the next one first (log 1). -/
  inputs : List HostInput
  /-- The model's own: bytes on `DIN` not yet taken, the next one first (log 1). -/
  din : List Byte
  /-- The model's own: the responses produced, the oldest first (log 2). -/
  rsp : List Response
deriving DecidableEq, Repr

/-- Why the machine stops. -/
inductive Fault where
  /-- The command at hand owns more payload bytes than `DIN` holds: it never completes, and "a model gives such a
  command no step" (20_memory.md R68, 70_reset_and_hazards.md R197; log 3). Raised by every command that owns a
  payload, refused or not. Safe: the engine waits for ever where the model stops. -/
  | payloadStarved
deriving DecidableEq, Repr

/-- Why the model gives no meaning. -/
inductive Refusal where
  /-- An instruction whose meaning is not modelled; no arm of exec answers it. Safe: nothing is claimed of it. -/
  | notModelled (mnemonic : String)
deriving DecidableEq, Repr

/-- The outcome of one step of this machine. -/
abbrev Result := Host.Outcome State Fault Refusal

/-- The state after reset, `InitState(0)` (10_state.md R33, R34, 70_reset_and_hazards.md R190), with nothing yet
offered or produced on the ports (log 1, log 2). -/
def State.reset : State where
  h := Accumulator.initial
  buf := []
  count := 0
  blocks := 0
  uc := false
  phase := .opened
  err := 0
  inputs := []
  din := []
  rsp := []

end Sys2Proof.Machine
end

