-- ==== Sys2Proof/Machine/Compress.lean ====
section
/-! DEFINITION. Machine/Compress.lean: the compression round, a pure function of the accumulator and one block
(43_compression_round.md R140 to R149). The working variables, the schedule and the round index are its local
values (10_state.md R32). -/

namespace Sys2Proof.Machine

/-- `rotl(x, n)`: bit `i` of `x` moves to bit `(i + n) mod 32` (00_scope.md R9). -/
def rotl (x : Word) (n : Nat) : Word := x.rotateLeft n

/-- The working variables `A` to `E` (43_compression_round.md R143). -/
structure WorkVars where
  a : Word
  b : Word
  c : Word
  d : Word
  e : Word
deriving DecidableEq, Repr

/-- `LoadWords`: each four bytes of the block as one big-endian word (43_compression_round.md R141). -/
def loadWords : List Byte → List Word
  | b0 :: b1 :: b2 :: b3 :: rest => (b0 ++ b1 ++ b2 ++ b3) :: loadWords rest
  | _ => []

/-- The next schedule word `W[i]`, `i` the length of the words so far:
`rotl(W[i-3] xor W[i-8] xor W[i-14] xor W[i-16], 1)` (43_compression_round.md R142). -/
def nextScheduleWord (w : List Word) : Word :=
  rotl (w.getD (w.length - 3) 0 ^^^ w.getD (w.length - 8) 0 ^^^ w.getD (w.length - 14) 0 ^^^ w.getD (w.length - 16) 0) 1

/-- `Expand`: `n` further schedule words, in increasing index (43_compression_round.md R142). -/
def expand : Nat → List Word → List Word
  | 0, w => w
  | n + 1, w => expand n (w ++ [nextScheduleWord w])

/-- The schedule `W[0..79]` of a block (43_compression_round.md R140). -/
def schedule (m : List Byte) : List Word := expand Config.expandedWords (loadWords m)

/-- `Ch`: rounds 0 to 19 (43_compression_round.md R145). -/
def ch (b c d : Word) : Word := (b &&& c) ||| (~~~b &&& d)

/-- `Parity`: rounds 20 to 39 and 60 to 79 (43_compression_round.md R145). -/
def parity (b c d : Word) : Word := b ^^^ c ^^^ d

/-- `Maj`: rounds 40 to 59 (43_compression_round.md R145). -/
def maj (b c d : Word) : Word := (b &&& c) ||| (b &&& d) ||| (c &&& d)

/-- `f` of `FK`, by round index range (43_compression_round.md R145). -/
def roundF (t : Nat) (b c d : Word) : Word :=
  if t < 20 then ch b c d
  else if t < 40 then parity b c d
  else if t < 60 then maj b c d
  else parity b c d

/-- `k` of `FK`, by round index range (43_compression_round.md R145; log 8). -/
def roundK (t : Nat) : Word :=
  if t < 20 then 0x5A827999
  else if t < 40 then 0x6ED9EBA1
  else if t < 60 then 0x8F1BBCDC
  else 0xCA62C1D6

/-- `Round(T, A, B, C, D, E, w)`: all five replaced at once from the old values (43_compression_round.md R144; log 8). -/
def roundStep (t : Nat) (v : WorkVars) (w : Word) : WorkVars :=
  ⟨rotl v.a 5 + roundF t v.b v.c v.d + v.e + roundK t + w, v.a, rotl v.b 30, v.c, v.d⟩

/-- Rounds `t`, `t+1`, … over the schedule words given, in that order (43_compression_round.md R140, R144). -/
def rounds : Nat → WorkVars → List Word → WorkVars
  | _, v, [] => v
  | t, v, w :: ws => rounds (t + 1) (roundStep t v w) ws

/-- The working variables at the start of a block: a copy of the accumulator (43_compression_round.md R143). -/
def loadVars (h : Accumulator) : WorkVars := ⟨h.h0, h.h1, h.h2, h.h3, h.h4⟩

/-- Add-back, each sum modulo 2^32 (43_compression_round.md R148). -/
def addBack (h : Accumulator) (v : WorkVars) : Accumulator :=
  ⟨h.h0 + v.a, h.h1 + v.b, h.h2 + v.c, h.h3 + v.d, h.h4 + v.e⟩

/-- `Compress(H, M)` (43_compression_round.md R140). -/
def compress (h : Accumulator) (m : List Byte) : Accumulator :=
  addBack h (rounds 0 (loadVars h) (schedule m))

end Sys2Proof.Machine
end

