-- ==== Sys2Proof/Machine/Flags.lean ====
section
/-! DEFINITION. Machine/Flags.lean: the bits of `PHASE`, `ERR` and the codes, the status word, and how `ERR` takes
a refusal's code (10_state.md R25 to R27, R35). There are no condition codes (R37). -/

namespace Sys2Proof.Machine

/-- The bit of a phase: `OPEN` 0, `FINAL` 1 (10_state.md R26). -/
def Phase.bit : Phase → BitVec 1
  | .opened => 0
  | .final => 1

/-- The 4-bit code (60_exceptions.md R171). -/
def Code.bits : Code → BitVec 4
  | .ok => 0
  | .illegal => 1
  | .phase => 2
  | .overflow => 3

/-- `STATUS`: `PHASE` in bit 0, `UC` in bit 1, `ERR` in bits 7:4, the rest 0 (10_state.md R35). -/
def statusWord (s : State) : BitVec 32 :=
  (0#24 ++ s.err ++ 0#2 ++ BitVec.ofBool s.uc ++ s.phase.bit : BitVec (24 + 4 + 2 + 1 + 1))

/-- `ERR <- code` when `ERR` is 0: the first refusal is kept (10_state.md R27, 60_exceptions.md R170). -/
def recordError (c : Code) (s : State) : State :=
  if s.err = 0#4 then { s with err := c.bits } else s

end Sys2Proof.Machine
end

