-- ==== Sys2Proof/Machine/Operands.lean ====
section
/-! DEFINITION. Machine/Operands.lean: the operands a command reads from the state: its payload (20_memory.md R52)
and the status value its select names (10_state.md R35). -/

namespace Sys2Proof.Machine

/-- Takes exactly `n` payload bytes from `DIN` and gives them, first byte first, with the state they have left, to
`k`; with fewer there the command never completes (20_memory.md R52, R68; log 3). Bytes beyond the `n` stay. -/
def withPayload (n : Nat) (s : State) (k : List Byte → State → Result) : Result :=
  if n ≤ s.din.length then k (s.din.take n) { s with din := s.din.drop n } else .fault .payloadStarved

/-- The status value of a select, none above 3 (10_state.md R35, 41_output_commands.md R124). -/
def statusValue (sel : Nat) (s : State) : Option (BitVec 32) :=
  if sel = 0 then some (statusWord s)
  else if sel = 1 then some s.blocks
  else if sel = 2 then some (s.count.extractLsb' 0 32)
  else if sel = 3 then some (s.count.extractLsb' 32 32)
  else none

end Sys2Proof.Machine
end

