-- ==== Sys2Proof/Machine/Ops.lean ====
section
/-! DEFINITION. Machine/Ops.lean: the operations over the staging buffer (00_scope.md R10, 20_memory.md R53, R54,
R65), the response (20_memory.md R67), TAKING A REFUSAL, the engine's exception (60_exceptions.md R170), which has no
return beside it because nothing is saved (R176), and the state writes the commands share: InitState
(10_state.md R33), Absorb (40_stream_commands.md R102) and the padding of FINISH (R105). -/

namespace Sys2Proof.Machine

/-! ## The staging buffer -/

/-- What an unlisted address of the staging buffer reads as: INIT and reset set every byte to 0x00 (10_state.md R22;
log 7). -/
def Memory.unlisted : Byte := 0

/-- One byte of the staging buffer. -/
def Memory.read : Memory → Nat → Byte
  | [], _ => Memory.unlisted
  | (k, v) :: rest, a => if k = a then v else Memory.read rest a

/-- `BUF[a] <- b`, keeping the canonical form: a cell that would hold the unlisted value is left out. -/
def Memory.write : Memory → Nat → Byte → Memory
  | [], a, b => if b = Memory.unlisted then [] else [(a, b)]
  | (k, v) :: rest, a, b =>
    if k < a then (k, v) :: Memory.write rest a b
    else
      let above := if k = a then rest else (k, v) :: rest
      if b = Memory.unlisted then above else (a, b) :: above

/-- The canonical form: addresses strictly rising, each below 64 (20_memory.md R50), no cell holding the unlisted
value. -/
def Memory.wf (m : Memory) : Bool :=
  decide (m.Pairwise fun x y => x.1 < y.1) && m.all fun c => decide (c.1 < Config.block) && c.2 != Memory.unlisted

/-- `MemRead(addr, n)`: the most significant byte is `BUF[addr]` (00_scope.md R10, 20_memory.md R53). -/
def memRead (m : Memory) (addr : Nat) : (n : Nat) → BitVec (8 * n)
  | 0 => 0#0
  | n + 1 => (memRead m addr n ++ m.read (addr + n) : BitVec (8 * n + 8))

/-- `MemWrite(addr, n, v)`: `BUF[addr] <- v[8n-1 : 8n-8]`, …, `BUF[addr+n-1] <- v[7:0]` (00_scope.md R10). -/
def memWrite (m : Memory) (addr : Nat) : (n : Nat) → BitVec (8 * n) → Memory
  | 0, _ => m
  | n + 1, v => (memWrite m addr n (v.extractLsb' 8 (8 * n))).write (addr + n) (v.extractLsb' 0 8)

/-- `for i in lo .. lo+n-1: BUF[i] <- 0x00`, the zero bytes of the padding (40_stream_commands.md R105). -/
def zeroFill (m : Memory) (lo : Nat) : Nat → Memory
  | 0 => m
  | n + 1 => (zeroFill m lo n).write (lo + n) 0

/-- `BUF[0..63]` as the block `Compress` takes: 64 bytes, byte `i` being `BUF[i]` (43_compression_round.md R140). -/
def bufBlock : Memory → List Byte
  | [] => List.replicate Config.block Memory.unlisted
  | (k, v) :: rest => (bufBlock rest).set k v

/-! ## Responses and refusals -/

/-- `respond(code)` and the bytes then emitted: one response, after those before it (20_memory.md R60, R67). -/
def respond (c : Code) (data : List Byte) (s : State) : State := { s with rsp := s.rsp ++ [⟨c, data⟩] }

/-- `raise Refuse(code)`, the payload already taken: `ERR` takes the first code, the response carries the code and no
data, nothing else changes, and the next command executes (60_exceptions.md R170, R175, R176). -/
def refuse (c : Code) (s : State) : Result := .next (respond c [] (recordError c s))

/-- A word that selects no row: its payload is taken and discarded, then `ILLEGAL` (30_encoding.md R74, R78,
60_exceptions.md R171). -/
def refuseIllegalWord (w : CmdWord) (s : State) : Result :=
  withPayload (payloadLen w) s fun _ s => refuse .illegal s

/-! ## State writes the commands share -/

/-- The state writes of INIT: the whole context becomes `InitState(uc)` (10_state.md R33, 40_stream_commands.md R100). -/
def initContext (uc : Bool) (s : State) : State :=
  { s with h := Accumulator.initial, buf := [], count := 0, blocks := 0, uc := uc, phase := .opened, err := 0 }

/-- `H <- Compress(H, BUF[0..63]); BLOCKS <- (BLOCKS + 1) mod 2^32` (40_stream_commands.md R102, R105). -/
def compressBuf (s : State) : State := { s with h := compress s.h (bufBlock s.buf), blocks := s.blocks + 1#32 }

/-- The fill level `COUNT mod 64` (10_state.md R23). -/
def fillLevel (s : State) : Nat := s.count.toNat % Config.block

/-- `BUF[COUNT mod 64] <- b; COUNT <- COUNT + 1` (20_memory.md R65). -/
def stage (b : Byte) (s : State) : State :=
  { s with buf := s.buf.write (fillLevel s) b, count := s.count + 1#64 }

/-- `Absorb(b)`: stage the byte; when the new fill level is 0, compress (40_stream_commands.md R102). -/
def absorb (s : State) (b : Byte) : State :=
  if fillLevel (stage b s) = 0 then compressBuf (stage b s) else stage b s

/-- `Absorb` of each byte in order (40_stream_commands.md R101). -/
def absorbAll (p : List Byte) (s : State) : State := p.foldl absorb s

/-- `L = COUNT * 8`, the message length in bits (10_state.md R23). -/
def bitLength (s : State) : BitVec 64 := s.count * 8#64

/-- `MemWrite(56, 8, L)`, then the last compression (40_stream_commands.md R105, 20_memory.md R54). -/
def lengthBlock (l : BitVec 64) (s : State) : State := compressBuf { s with buf := memWrite s.buf 56 8 l }

/-- The state writes of FINISH: `0x80`, zero bytes, a further block when the length does not fit this one, the length
field, `PHASE <- FINAL`; `COUNT` is not written (40_stream_commands.md R105). -/
def closeStream (s : State) : State :=
  let n := fillLevel s
  let marked := s.buf.write n 0x80
  let padded :=
    if n ≤ 55 then { s with buf := zeroFill marked (n + 1) (55 - n) }
    else
      let first := compressBuf { s with buf := zeroFill marked (n + 1) (63 - n) }
      { first with buf := zeroFill first.buf 0 56 }
  { lengthBlock (bitLength s) padded with phase := .final }

/-! ## The reset input and the command port -/

/-- A reset event: the context becomes `InitState(0)`, nothing is taken and no response is produced
(70_reset_and_hazards.md R190, R193; log 5). -/
def resetContext (s : State) : State := initContext false s

/-- Takes the command word at the head of `CMD` off the port. -/
def dropInput (s : State) : State := { s with inputs := s.inputs.tail }

/-- A command's words and payload offered to the engine, before all else on its ports. -/
def offerFirst (w : CmdWord) (payload : List Byte) (s : State) : State :=
  { s with inputs := .command w :: s.inputs, din := payload ++ s.din }

end Sys2Proof.Machine
end

