-- ==== Sys2Proof/Machine/Render.lean ====
section
/-! DEFINITION. Machine/Render.lean: the two renderings of a digest and the bytes of a 32-bit value
(41_output_commands.md R120, R121, 20_memory.md R55, R56). -/

namespace Sys2Proof.Machine

/-- A 32-bit value as 4 bytes, most significant first (20_memory.md R55, R56). -/
def wordBytes (v : BitVec 32) : List Byte :=
  [v.extractLsb' 24 8, v.extractLsb' 16 8, v.extractLsb' 8 8, v.extractLsb' 0 8]

/-- `DigestBytes(H)`: `H[0]` to `H[4]`, 4 bytes each (41_output_commands.md R120). -/
def digestBytes (h : Accumulator) : List Byte :=
  wordBytes h.h0 ++ wordBytes h.h1 ++ wordBytes h.h2 ++ wordBytes h.h3 ++ wordBytes h.h4

/-- `HexChar(v, uc)`: the ASCII code of a hexadecimal digit (41_output_commands.md R121; log 8). -/
def hexChar (v : BitVec 4) (uc : Bool) : Byte :=
  if v.toNat ≤ 9 then 0x30 + v.setWidth 8
  else if uc then 0x41 + (v.setWidth 8 - 10)
  else 0x61 + (v.setWidth 8 - 10)

/-- The two characters of a byte, high nibble first (41_output_commands.md R121). -/
def byteText (uc : Bool) (b : Byte) : List Byte := [hexChar (b.extractLsb' 4 4) uc, hexChar (b.extractLsb' 0 4) uc]

/-- `HexText(H, uc)`: 40 characters, no terminator (41_output_commands.md R121). -/
def hexText (h : Accumulator) (uc : Bool) : List Byte := (digestBytes h).flatMap (byteText uc)

end Sys2Proof.Machine
end

