-- ==== Sys2Proof/Machine/OneShot.lean ====
section
/-! DEFINITION. Machine/OneShot.lean: the one-shot commands HASHT and HASHB (42_oneshot_commands.md). -/

namespace Sys2Proof.Machine

/-- The state writes of INIT, the payload absorbed, the state writes of FINISH (42_oneshot_commands.md R130, R131). -/
def hashPayload (uc : Bool) (p : List Byte) (s : State) : State := closeStream (absorbAll p (initContext uc s))

/-- HASHT (42_oneshot_commands.md R130). -/
def execHasht (uc : Bool) (len : Nat) (s : State) : Result :=
  withPayload len s fun p s =>
    .next (respond .ok (hexText (hashPayload uc p s).h (hashPayload uc p s).uc) (hashPayload uc p s))

/-- HASHB (42_oneshot_commands.md R131). -/
def execHashb (len : Nat) (s : State) : Result :=
  withPayload len s fun p s => .next (respond .ok (digestBytes (hashPayload false p s).h) (hashPayload false p s))

end Sys2Proof.Machine
end

