-- ==== Sys2Proof/Machine/Output.lean ====
section
/-! DEFINITION. Machine/Output.lean: the output commands RDDIG, RDTEXT and RDSR (41_output_commands.md). -/

namespace Sys2Proof.Machine

/-- RDDIG (41_output_commands.md R122). -/
def execRddig (s : State) : Result :=
  match s.phase with
  | .opened => refuse .phase s
  | .final => .next (respond .ok (digestBytes s.h) s)

/-- RDTEXT: the case is the stored `UC` (41_output_commands.md R123). -/
def execRdtext (s : State) : Result :=
  match s.phase with
  | .opened => refuse .phase s
  | .final => .next (respond .ok (hexText s.h s.uc) s)

/-- RDSR: the selected value, most significant byte first; a select above 3 is `ILLEGAL` (41_output_commands.md R124,
10_state.md R35). -/
def execRdsr (sel : Nat) (s : State) : Result :=
  match statusValue sel s with
  | some v => .next (respond .ok (wordBytes v) s)
  | none => refuse .illegal s

end Sys2Proof.Machine
end

