-- ==== Sys2Proof/Machine/Stream.lean ====
section
/-! DEFINITION. Machine/Stream.lean: the streaming commands INIT, UPDATE and FINISH (40_stream_commands.md). The
`ILLEGAL` checks on `FLG` and `ARG` are `decode`'s. -/

namespace Sys2Proof.Machine

/-- INIT (40_stream_commands.md R100). -/
def execInit (uc : Bool) (s : State) : Result := .next (respond .ok [] (initContext uc s))

/-- UPDATE (40_stream_commands.md R101): the phase is checked before the length (60_exceptions.md R174), both before
the first byte is absorbed; the payload is taken in every case. -/
def execUpdate (len : Nat) (s : State) : Result :=
  withPayload len s fun p s =>
    match s.phase with
    | .final => refuse .phase s
    | .opened =>
      if s.count.toNat + len < Config.byteLimit then .next (respond .ok [] (absorbAll p s)) else refuse .overflow s

/-- FINISH (40_stream_commands.md R105). -/
def execFinish (s : State) : Result :=
  match s.phase with
  | .final => refuse .phase s
  | .opened => .next (respond .ok [] (closeStream s))

end Sys2Proof.Machine
end

