-- ==== Sys2Proof/Machine/Dispatch.lean ====
section
/-! DEFINITION. Machine/Dispatch.lean: one arm per command (30_encoding.md R73). -/

namespace Sys2Proof.Machine

def exec (i : Instr) (s : State) : Host.Outcome State Fault Refusal :=
  match i with
  | .init uc => Sys2Proof.Machine.execInit uc s
  | .update len => Sys2Proof.Machine.execUpdate len s
  | .finish => Sys2Proof.Machine.execFinish s
  | .rddig => Sys2Proof.Machine.execRddig s
  | .rdtext => Sys2Proof.Machine.execRdtext s
  | .hasht uc len => Sys2Proof.Machine.execHasht uc len s
  | .hashb len => Sys2Proof.Machine.execHashb len s
  | .rdsr sel => Sys2Proof.Machine.execRdsr sel s

end Sys2Proof.Machine
end

