-- ==== Sys2Proof/Machine/Step.lean ====
section
/-! DEFINITION. Machine/Step.lean: one step of the engine: one command, one reset event, or idle
(20_memory.md R58, 70_reset_and_hazards.md R193, R194). -/

namespace Sys2Proof.Machine

/-- A command word taken from `CMD`: the command it decodes to, or the `ILLEGAL` refusal (30_encoding.md R80,
60_exceptions.md R171). -/
def runWord (w : CmdWord) (s : State) : Host.Outcome State Fault Refusal :=
  match decode w with
  | .ok i => exec i s
  | .error _ => refuseIllegalWord w s

/-- One step. With nothing offered the engine is idle and holds its state (70_reset_and_hazards.md R194; log 6). -/
def step (s : State) : Host.Outcome State Fault Refusal :=
  match s.inputs with
  | [] => .next s
  | .reset :: _ => .next (resetContext (dropInput s))
  | .command w :: _ => runWord w (dropInput s)

/-- `s` with the command of a table row offered first: its word on `CMD`, and on `DIN` the payload bytes the word owns,
each 0 as the bits of an instruction beyond the table's are (log 4). -/
def State.withFetchWord (s : State) (_nbits w : Nat) : State :=
  offerFirst (BitVec.ofNat 32 w) (List.replicate (payloadLen (BitVec.ofNat 32 w)) 0) s

end Sys2Proof.Machine
end

