-- ==== Sys2Proof/Safety.lean ====
section
/-! DEFINITION. Safety.lean: the terms claims are stated in: what a response and a refusal leave, the invariant of
every step, the message a context holds, the padded message (40_stream_commands.md R106), and the other forms the
spec gives of UPDATE (R104) and of `Compress` (43_compression_round.md R150). The machine calls none of these. -/

namespace Sys2Proof.Machine

/-! ## What one command leaves -/

/-- `H`, `BUF`, `COUNT`, `BLOCKS`, `UC` and `PHASE` are as before: all of the context but `ERR` (60_exceptions.md R175). -/
abbrev SameButErr (s t : State) : Prop :=
  t.h = s.h ∧ t.buf = s.buf ∧ t.count = s.count ∧ t.blocks = s.blocks ∧ t.uc = s.uc ∧ t.phase = s.phase

/-- The whole context of 10_state.md R20 is as before. -/
abbrev SameContext (s t : State) : Prop := SameButErr s t ∧ t.err = s.err

/-- The ports after a command that took `n` payload bytes and gave one response (20_memory.md R67). The command word
itself is already off `CMD` in `s`. -/
abbrev Answered (n : Nat) (c : Code) (data : List Byte) (s t : State) : Prop :=
  t.inputs = s.inputs ∧ t.din = s.din.drop n ∧ t.rsp = s.rsp ++ [⟨c, data⟩]

/-- The whole effect of a refusal (60_exceptions.md R170, R175): `ERR` takes the first code, the `n` payload bytes are
taken, the response carries the code and no data. -/
abbrev Refused (n : Nat) (c : Code) (s t : State) : Prop :=
  SameButErr s t ∧ t.err = (if s.err = 0#4 then c.bits else s.err) ∧ Answered n c [] s t

/-- The context is `InitState(uc)` (10_state.md R33). -/
abbrev IsInitState (uc : Bool) (t : State) : Prop :=
  t.h = ⟨0x67452301, 0xEFCDAB89, 0x98BADCFE, 0x10325476, 0xC3D2E1F0⟩ ∧ (∀ a < 64, t.buf.read a = 0x00) ∧
    t.count = 0 ∧ t.blocks = 0 ∧ t.uc = uc ∧ t.phase = .opened ∧ t.err = 0

/-- Every word of opcode `op` whose `FLG` and `ARG` are `bad` is refused with `ILLEGAL`, its payload taken
(60_exceptions.md R171). -/
def IllegalWhen (op : BitVec 4) (bad : BitVec 4 → BitVec 24 → Prop) : Prop :=
  ∀ (s : State) (w : CmdWord) (rest : List HostInput), s.inputs = .command w :: rest → opField w = op →
    bad (flgField w) (argField w) → payloadLen w ≤ s.din.length →
    ∃ t, step s = .next t ∧ Refused (payloadLen w) .illegal { s with inputs := rest } t

/-! ## The invariant of every step -/

/-- What every step keeps: the staging buffer is in canonical form; `COUNT` is below 2^61 (10_state.md R23); `ERR` is
at most 3 (R27); `BLOCKS` counts the blocks of the message so far, and the padding blocks after FINISH, modulo 2^32
(R24). -/
abbrev State.Inv (s : State) : Prop :=
  s.buf.wf = true ∧ s.count.toNat < 2 ^ 61 ∧ s.err.toNat ≤ 3 ∧
    (s.phase = .opened → s.blocks = BitVec.ofNat 32 (s.count.toNat / 64)) ∧
    (s.phase = .final →
      s.blocks = BitVec.ofNat 32 (s.count.toNat / 64 + if s.count.toNat % 64 ≤ 55 then 1 else 2))

/-! ## Messages -/

/-- `BE64(v)`: the 8 bytes of `v`, most significant first (40_stream_commands.md R106). -/
def be64 (v : BitVec 64) : List Byte :=
  [v.extractLsb' 56 8, v.extractLsb' 48 8, v.extractLsb' 40 8, v.extractLsb' 32 8,
   v.extractLsb' 24 8, v.extractLsb' 16 8, v.extractLsb' 8 8, v.extractLsb' 0 8]

/-- `Pad(m) = m ++ [0x80] ++ [0x00] * z ++ BE64(8 * N)`, `z = (55 - N) mod 64` (40_stream_commands.md R106). -/
def pad (m : List Byte) : List Byte :=
  m ++ [0x80] ++ List.replicate ((119 - m.length % 64) % 64) 0x00 ++ be64 (BitVec.ofNat 64 (8 * m.length))

/-- The complete 64-byte blocks of a byte string, in order. -/
def blocksOf (m : List Byte) : List (List Byte) := (List.range (m.length / 64)).map fun k => (m.drop (64 * k)).take 64

/-- `Compress` folded over blocks (40_stream_commands.md R106). -/
def hashBlocks (h : Accumulator) (bs : List (List Byte)) : Accumulator := bs.foldl compress h

/-- The digest of a message: `Compress` folded over the blocks of its padding from the initial constants
(40_stream_commands.md R106). -/
def digestOf (m : List Byte) : Accumulator := hashBlocks Accumulator.initial (blocksOf (pad m))

/-- An open context holds the message `m`: `COUNT` is its length, the accumulator has taken its complete blocks, and
the first `COUNT mod 64` bytes of `BUF` are its tail (10_state.md R22, R23, R28). -/
def HoldsMessage (m : List Byte) (s : State) : Prop :=
  m.length < 2 ^ 61 ∧ s.buf.wf = true ∧ s.phase = .opened ∧ s.count = BitVec.ofNat 64 m.length ∧
    s.h = hashBlocks Accumulator.initial (blocksOf m) ∧ s.blocks = BitVec.ofNat 32 (m.length / 64) ∧
    ∀ a < m.length % 64, s.buf.read a = m.getD (64 * (m.length / 64) + a) 0

/-- Two contexts that differ at most in stale bytes of `BUF`: index `COUNT mod 64` and above while `OPEN`, any while
`FINAL` (10_state.md R22). -/
abbrev SameUpToStale (s t : State) : Prop :=
  t.h = s.h ∧ t.count = s.count ∧ t.blocks = s.blocks ∧ t.uc = s.uc ∧ t.phase = s.phase ∧ t.err = s.err ∧
    t.inputs = s.inputs ∧ t.din = s.din ∧ t.rsp = s.rsp ∧ s.buf.wf = true ∧ t.buf.wf = true ∧
    (s.phase = .opened → ∀ a < s.count.toNat % 64, t.buf.read a = s.buf.read a)

/-- The host's commands for one message cut into fragments: INIT, one UPDATE each, FINISH, RDTEXT (10_state.md R29). -/
def messageInputs (uc : Bool) (fragments : List (List Byte)) : List HostInput :=
  .command (encode (.init uc)) :: fragments.map (fun p => .command (encode (.update p.length))) ++
    [.command (encode .finish), .command (encode .rdtext)]

/-! ## Hexadecimal text read back (41_output_commands.md R126) -/

/-- A lowercase letter `a` to `f` as its uppercase letter, any other byte as it is. -/
def upperByte (b : Byte) : Byte := if 0x61 ≤ b.toNat ∧ b.toNat ≤ 0x66 then b - 0x20 else b

/-- The value of a hexadecimal character. -/
def hexDigit (b : Byte) : Byte :=
  if b.toNat ≤ 0x39 then b - 0x30 else if 0x61 ≤ b.toNat then b - 0x57 else b - 0x37

/-- Hexadecimal text, two characters a byte, high nibble first. -/
def unhex : List Byte → List Byte
  | x :: y :: rest => (hexDigit x * 16 + hexDigit y) :: unhex rest
  | _ => []

/-! ## Other forms of UPDATE and of `Compress` -/

/-- `BUF[lo .. lo+length(p)-1] <- p`. -/
def storeBytes (m : Memory) (lo : Nat) : List Byte → Memory
  | [] => m
  | b :: p => storeBytes (m.write lo b) (lo + 1) p

/-- The block-wise form of UPDATE (40_stream_commands.md R104). -/
def blockwiseUpdate (p : List Byte) (s : State) : State :=
  let n := fillLevel s
  if n + p.length < 64 then
    { s with buf := storeBytes s.buf n p, count := s.count + BitVec.ofNat 64 p.length }
  else
    let k := 64 - n
    let q := (p.length - k) / 64
    let first := compressBuf { s with buf := storeBytes s.buf n (p.take k) }
    let middle := (List.range q).foldl
      (fun u j => compressBuf { u with buf := storeBytes u.buf 0 ((p.drop (k + 64 * j)).take 64) }) first
    { middle with
      buf := storeBytes middle.buf 0 (p.drop (k + 64 * q))
      count := s.count + BitVec.ofNat 64 p.length }

/-- Round `t` with the schedule in a 16-word circular buffer: from round 16 on, `w[t mod 16]` is replaced just before
the round (43_compression_round.md R150). -/
def ringRound (p : WorkVars × List Word) (t : Nat) : WorkVars × List Word :=
  let w :=
    if t < 16 then p.2
    else p.2.set (t % 16) (rotl (p.2.getD ((t - 3) % 16) 0 ^^^ p.2.getD ((t - 8) % 16) 0 ^^^
      p.2.getD ((t - 14) % 16) 0 ^^^ p.2.getD (t % 16) 0) 1)
  (roundStep t p.1 (w.getD (t % 16) 0), w)

/-- `Compress` with the 16-word circular buffer (43_compression_round.md R150). -/
def compressRing (h : Accumulator) (m : List Byte) : Accumulator :=
  addBack h ((List.range 80).foldl ringRound (loadVars h, loadWords m)).1

end Sys2Proof.Machine
end

