-- ==== Sys2Proof/Certificates/Slice0/Obligations.lean ====
section
/-! DEFINITION. Certificates/Slice0/Obligations.lean: the statements for the provers, one definition each, under the
rule of spec/ it formalises. -/

open Sys2Proof Sys2Proof.Machine

/-! ## Encoding (30_encoding.md) -/

/-- Decode and encode agree on every well-formed command, on `CMD` and over a byte-wide path, and the word owns the
payload the command takes (30_encoding.md sections 2 and 3, 20_memory.md section 3). -/
def Obligations.DecodeOfEncodeIsTheCommand : Prop :=
  ∀ i : Instr, i.wellFormed = true →
    decode (encode i) = .ok i ∧ decodeBytes (encodeBytes i) = .ok i ∧ payloadLen (encode i) = i.payloadLen

/-- Encode of decode gives the word back, but for the three ignored flag bits of INIT and HASHT; a decoded command is
well-formed and takes the payload its word owns (30_encoding.md sections 2 and 3). -/
def Obligations.EncodeOfDecodeIsTheWord : Prop :=
  ∀ (w : CmdWord) (i : Instr), decode w = .ok i →
    i.wellFormed = true ∧ i.payloadLen = payloadLen w ∧
      encode i = if opField w = 1 ∨ opField w = 6 then w &&& 0xF1FFFFFF else w

/-- 30_encoding.md R73: a word decodes to a command exactly when it selects that command's row; the rows are disjoint;
a word that selects no row is refused with `ILLEGAL`. -/
def Obligations.DecodeFollowsTheOpcodeMap : Prop :=
  (∀ w r, r ∈ opcodeRows → r.selects w = true → ∃ i, decode w = .ok i ∧ i.mnemonic = r.mnemonic) ∧
  (∀ w i, decode w = .ok i → ∃ r ∈ opcodeRows, r.selects w = true ∧ r.mnemonic = i.mnemonic) ∧
  (∀ w r r', r ∈ opcodeRows → r' ∈ opcodeRows → r.selects w = true → r'.selects w = true → r = r') ∧
  (∀ (s : State) w rest, s.inputs = .command w :: rest → (∀ r ∈ opcodeRows, r.selects w = false) →
    payloadLen w ≤ s.din.length →
    ∃ t, step s = .next t ∧ Refused (payloadLen w) .illegal { s with inputs := rest } t)

/-- 30_encoding.md R74: `PayloadLen` is `ARG` for the opcodes 2, 6 and 7 and 0 otherwise, and every command that
completes takes exactly that many bytes from `DIN`, refused or not. -/
def Obligations.EveryCommandTakesItsPayloadLength : Prop :=
  (∀ w : CmdWord, (opField w = 2 ∨ opField w = 6 ∨ opField w = 7 → payloadLen w = (w.extractLsb' 0 24).toNat) ∧
    (¬(opField w = 2 ∨ opField w = 6 ∨ opField w = 7) → payloadLen w = 0)) ∧
  (∀ (s t : State) w rest, s.inputs = .command w :: rest → step s = .next t →
    payloadLen w ≤ s.din.length ∧ t.din = s.din.drop (payloadLen w)) ∧
  (∀ (s : State) w rest, s.inputs = .command w :: rest → payloadLen w ≤ s.din.length → ∃ t, step s = .next t)

/-- 30_encoding.md R78: a reserved opcode (0, 9 to 15) is refused with code 1, takes no payload and emits no data;
every word selects one row or is refused. -/
def Obligations.ReservedOpcodesAreRefused : Prop :=
  (∀ (s : State) w rest, s.inputs = .command w :: rest → (opField w = 0 ∨ 9 ≤ (opField w).toNat) →
    ∃ t, step s = .next t ∧ Refused 0 .illegal { s with inputs := rest } t) ∧
  (∀ w : CmdWord, (∃ r ∈ opcodeRows, r.selects w = true ∧ ∀ r' ∈ opcodeRows, r'.selects w = true → r' = r) ∨
    ∀ (s : State) rest, s.inputs = .command w :: rest → payloadLen w ≤ s.din.length →
      ∃ t, step s = .next t ∧ Refused (payloadLen w) .illegal { s with inputs := rest } t)

/-- 30_encoding.md R79: a must-be-zero field that is not 0 makes the word `ILLEGAL`; `FLG[3:1]` of INIT and HASHT is
ignored. -/
def Obligations.MustBeZeroFieldsAreChecked : Prop :=
  IllegalWhen 1 (fun _ arg => arg ≠ 0) ∧ IllegalWhen 2 (fun flg _ => flg ≠ 0) ∧
  IllegalWhen 3 (fun flg arg => flg ≠ 0 ∨ arg ≠ 0) ∧ IllegalWhen 4 (fun flg arg => flg ≠ 0 ∨ arg ≠ 0) ∧
  IllegalWhen 5 (fun flg arg => flg ≠ 0 ∨ arg ≠ 0) ∧ IllegalWhen 7 (fun flg _ => flg ≠ 0) ∧
  IllegalWhen 8 (fun flg arg => flg ≠ 0 ∨ 3 < arg.toNat) ∧
  (∀ w w' : CmdWord, opField w = 1 ∨ opField w = 6 → w &&& 0xF1FFFFFF = w' &&& 0xF1FFFFFF → decode w = decode w')

/-- A few words decoded as 95_test_vectors.md section 2.9 lists them: a check of sanity. -/
def Obligations.ListedWordsDecode : Prop :=
  decode 0x1e000000 = .ok (.init false) ∧ decode 0x11000000 = .ok (.init true) ∧
  decode 0x20ffffff = .ok (.update 16777215) ∧ decode 0x30000000 = .ok .finish ∧
  decode 0x61000003 = .ok (.hasht true 3) ∧ decode 0x70000003 = .ok (.hashb 3) ∧
  decode 0x80000003 = .ok (.rdsr 3) ∧ (decode 0x80000004).toOption = none ∧ (decode 0x9000ffff).toOption = none

/-! ## The step (00_scope.md R7, 20_memory.md, 70_reset_and_hazards.md) -/

/-- A step runs the decoded command: with a word that decodes to `i` next on `CMD`, the step takes the word off the
port and is `exec` of `i` (20_memory.md section 7). `withFetchWord` (log 4) places a table row's word so. -/
def Obligations.StepRunsTheDecodedCommand : Prop :=
  (∀ (s : State) w rest i, s.inputs = .command w :: rest → decode w = .ok i →
    i.wellFormed = true ∧ step s = exec i { s with inputs := rest }) ∧
  (∀ (s : State) nbits w i, decodeTableWord nbits w = some i →
    step (s.withFetchWord nbits w) = exec i { s with din := List.replicate i.payloadLen 0 ++ s.din })

/-- A reset puts the context in `InitState(0)` and produces no response; it is the context `INIT 0` leaves, and the
context of `State.reset` (70_reset_and_hazards.md section 1). THE MODEL'S CHOICE (log 5): the command words not yet
taken stay on the port, `t.inputs = rest`; the spec leaves them to the host to withdraw. -/
def Obligations.ResetGivesInitStateZero : Prop :=
  (∀ (s : State) rest, s.inputs = .reset :: rest →
    ∃ t, step s = .next t ∧ IsInitState false t ∧ t.inputs = rest ∧ t.rsp = s.rsp ∧
      ∃ u, exec (.init false) s = .next u ∧ SameContext u t) ∧
  IsInitState false State.reset

/-- With nothing offered the step leaves the state as it is: the model's reading of an idle engine (log 6,
70_reset_and_hazards.md section 1). -/
def Obligations.IdleStepHoldsTheState : Prop :=
  ∀ s : State, s.inputs = [] → step s = .next s

/-- The machine stops only on a command whose payload is not all there, by the fault that stands for "stuck" (log 3,
20_memory.md section 2), and no command is left without a meaning. -/
def Obligations.StepStopsOnlyWhenStarved : Prop :=
  ∀ s : State, (∀ r, step s ≠ .refused r) ∧
    ∀ f, step s = .fault f ↔ f = .payloadStarved ∧ ∃ w rest, s.inputs = .command w :: rest ∧ s.din.length < payloadLen w

/-- 20_memory.md R67: each command produces exactly one response, after those before it; the number of data bytes is
fixed by the command and the code: 20, 40, 4 or 0 on `OK`, 0 on a refusal. -/
def Obligations.OneResponseOfFixedLength : Prop :=
  (∀ (i : Instr) (s t : State), exec i s = .next t → ∃ r, t.rsp = s.rsp ++ [r] ∧
    (r.code ≠ .ok → r.data = []) ∧
    (r.code = .ok → r.data.length =
      match i with
      | .rddig => 20
      | .hashb _ => 20
      | .rdtext => 40
      | .hasht _ _ => 40
      | .rdsr _ => 4
      | .init _ => 0
      | .update _ => 0
      | .finish => 0)) ∧
  (∀ (s t : State) w rest, s.inputs = .command w :: rest → step s = .next t → ∃ r, t.rsp = s.rsp ++ [r]) ∧
  Code.bits .ok = 0 ∧ Code.bits .illegal = 1 ∧ Code.bits .phase = 2 ∧ Code.bits .overflow = 3

/-! ## Byte order (20_memory.md) -/

/-- 20_memory.md R53, 43_compression_round.md R141: the 16 words of a block are big-endian, the shift form and the
`MemRead` form alike. -/
def Obligations.BlockWordsAreBigEndian : Prop :=
  (∀ M : List Byte, M.length = 64 → (loadWords M).length = 16 ∧ ∀ i < 16,
    (loadWords M).getD i 0 =
        (M.getD (4 * i) 0 ++ M.getD (4 * i + 1) 0 ++ M.getD (4 * i + 2) 0 ++ M.getD (4 * i + 3) 0 : BitVec 32) ∧
      (loadWords M).getD i 0 =
        ((M.getD (4 * i) 0).setWidth 32 <<< 24 ||| (M.getD (4 * i + 1) 0).setWidth 32 <<< 16 |||
          (M.getD (4 * i + 2) 0).setWidth 32 <<< 8 ||| (M.getD (4 * i + 3) 0).setWidth 32)) ∧
  (∀ (m : Memory), ∀ i < 16, (loadWords (bufBlock m)).getD i 0 = memRead m (4 * i) 4 ∧
    memRead m (4 * i) 4 = m.read (4 * i) ++ m.read (4 * i + 1) ++ m.read (4 * i + 2) ++ m.read (4 * i + 3))

/-- FINISH writes `L = COUNT * 8` as a 64-bit big-endian integer into `BUF[56..63]`, exact below 2^61 bytes
(20_memory.md section 3, 40_stream_commands.md section 3). -/
def Obligations.LengthFieldIsBigEndian : Prop :=
  ∀ s : State, s.buf.wf = true → s.phase = .opened → s.count.toNat < 2 ^ 61 →
    ∃ (t : State) (L : BitVec 64), exec .finish s = .next t ∧ L.toNat = s.count.toNat * 8 ∧
      ∀ j < 8, t.buf.read (56 + j) = L.extractLsb' (56 - 8 * j) 8

/-- 41_output_commands.md R120: `DigestBytes` is 20 bytes, `D[4i+j] = H[i][31-8j : 24-8j]`. -/
def Obligations.DigestBytesAreBigEndian : Prop :=
  ∀ h : Accumulator, (digestBytes h).length = 20 ∧ ∀ i < 5, ∀ j < 4,
    (digestBytes h).getD (4 * i + j) 0 = ([h.h0, h.h1, h.h2, h.h3, h.h4].getD i 0).extractLsb' (24 - 8 * j) 8

/-- 41_output_commands.md R121: `HexText` is 40 characters, two for each byte of `DigestBytes`, high nibble first, by
the table of `HexChar`. -/
def Obligations.HexTextLayout : Prop :=
  (∀ (h : Accumulator) (uc : Bool), (hexText h uc).length = 40 ∧ ∀ k < 20,
    (hexText h uc).getD (2 * k) 0 = hexChar (((digestBytes h).getD k 0).extractLsb' 4 4) uc ∧
    (hexText h uc).getD (2 * k + 1) 0 = hexChar (((digestBytes h).getD k 0).extractLsb' 0 4) uc) ∧
  (∀ v : BitVec 4, ∀ uc : Bool, (hexChar v uc).toNat =
    if v.toNat ≤ 9 then 0x30 + v.toNat else if uc then 0x41 + (v.toNat - 10) else 0x61 + (v.toNat - 10))

/-! ## The compression round (43_compression_round.md) -/

/-- 43_compression_round.md R142: the schedule of a block has 80 words, the first 16 the block's, each further one
`rotl(W[i-3] xor W[i-8] xor W[i-14] xor W[i-16], 1)`; an all-zero block gives an all-zero schedule. -/
def Obligations.ScheduleRecurrence : Prop :=
  (∀ M : List Byte, M.length = 64 → (schedule M).length = 80 ∧
    (∀ i < 16, (schedule M).getD i 0 = (loadWords M).getD i 0) ∧
    ∀ i, 16 ≤ i → i < 80 → (schedule M).getD i 0 =
      rotl ((schedule M).getD (i - 3) 0 ^^^ (schedule M).getD (i - 8) 0 ^^^ (schedule M).getD (i - 14) 0 ^^^
        (schedule M).getD (i - 16) 0) 1) ∧
  (∀ i < 80, (schedule (List.replicate 64 0)).getD i 0 = 0) ∧ rotl 0x80000000 1 = 0x00000001

/-- 43_compression_round.md R140, R143, R144, R145, R148: `Compress` is the 80 rounds over the schedule, from a copy of
the accumulator, with `f` and `k` by index range, and the add-back. -/
def Obligations.CompressIsTheEightyRounds : Prop :=
  ∀ (h : Accumulator) (M : List Byte), M.length = 64 →
    ∃ A B C D E : Nat → Word,
      (A 0 = h.h0 ∧ B 0 = h.h1 ∧ C 0 = h.h2 ∧ D 0 = h.h3 ∧ E 0 = h.h4) ∧
      (∀ t < 80, ∃ f k : Word,
        (t < 20 → f = (B t &&& C t) ||| (~~~(B t) &&& D t) ∧ k = 0x5A827999) ∧
        (20 ≤ t → t < 40 → f = B t ^^^ C t ^^^ D t ∧ k = 0x6ED9EBA1) ∧
        (40 ≤ t → t < 60 → f = (B t &&& C t) ||| (B t &&& D t) ||| (C t &&& D t) ∧ k = 0x8F1BBCDC) ∧
        (60 ≤ t → f = B t ^^^ C t ^^^ D t ∧ k = 0xCA62C1D6) ∧
        A (t + 1) = rotl (A t) 5 + f + E t + k + (schedule M).getD t 0 ∧
        B (t + 1) = A t ∧ C (t + 1) = rotl (B t) 30 ∧ D (t + 1) = C t ∧ E (t + 1) = D t) ∧
      compress h M = ⟨h.h0 + A 80, h.h1 + B 80, h.h2 + C 80, h.h3 + D 80, h.h4 + E 80⟩

/-- `rotl(x, n)` moves bit `i` to bit `(i + n) mod 32` and is the two shifts joined; by 30 it is a right rotation by 2
(00_scope.md section 5, 43_compression_round.md section 5). -/
def Obligations.RotlMovesEveryBit : Prop :=
  (∀ (x : Word) (n i : Nat), 0 < n → n < 32 → i < 32 → (rotl x n).getLsbD ((i + n) % 32) = x.getLsbD i) ∧
  (∀ (x : Word) (n : Nat), 0 < n → n < 32 → rotl x n = x <<< n ||| x >>> (32 - n)) ∧
  ∀ x : Word, rotl x 30 = x >>> 2 ||| x <<< 30

/-- The three round functions bit by bit, and the equivalent forms a model may use (43_compression_round.md section 3,
marked there as derived). -/
def Obligations.RoundFunctionForms : Prop :=
  (∀ (b c d : Word) (i : Nat), i < 32 →
    (ch b c d).getLsbD i = (if b.getLsbD i then c.getLsbD i else d.getLsbD i) ∧
    (parity b c d).getLsbD i = decide ((b.getLsbD i).toNat + (c.getLsbD i).toNat + (d.getLsbD i).toNat = 1 ∨
      (b.getLsbD i).toNat + (c.getLsbD i).toNat + (d.getLsbD i).toNat = 3) ∧
    (maj b c d).getLsbD i = decide (2 ≤ (b.getLsbD i).toNat + (c.getLsbD i).toNat + (d.getLsbD i).toNat)) ∧
  (∀ b c d : Word, ch b c d = d ^^^ (b &&& (c ^^^ d)) ∧ maj b c d = (b &&& c) ||| (d &&& (b ||| c)) ∧
    maj b c d = (b &&& c) ^^^ (b &&& d) ^^^ (c &&& d))

/-- The 16-word circular buffer gives the same accumulator (43_compression_round.md section 5, marked there as
derived). -/
def Obligations.RingScheduleEqualsCompress : Prop :=
  ∀ (h : Accumulator) (M : List Byte), M.length = 64 → compressRing h M = compress h M

/-! ## INIT, UPDATE, FINISH (40_stream_commands.md) -/

/-- 40_stream_commands.md R100: INIT completes in every state, makes the whole context `InitState(FLG[0])` and responds
`OK`; a word with `ARG` not 0 is `ILLEGAL`; `FLG[3:1]` is ignored. -/
def Obligations.InitCommand : Prop :=
  (∀ (uc : Bool) (s : State), ∃ t, exec (.init uc) s = .next t ∧ IsInitState uc t ∧ Answered 0 .ok [] s t) ∧
  (∀ w : CmdWord, w &&& 0xF0FFFFFF = 0x10000000 → decode w = .ok (.init (w.getLsbD 24))) ∧
  IllegalWhen 1 (fun _ arg => arg ≠ 0)

/-- 40_stream_commands.md R101: UPDATE absorbs its payload in order when the stream is open and the total stays below
2^61, and is refused otherwise, `PHASE` before `OVERFLOW`, absorbing none of it; `H` and `BLOCKS` change once for each
block completed. FRAME: `UC`, `PHASE` and `ERR` are as before, and every byte of `BUF` outside the indices stored to,
`(COUNT + k) mod 64`, reads as before. -/
def Obligations.UpdateCommand : Prop :=
  (∀ (len : Nat) (s : State), s.buf.wf = true → s.phase = .opened → len ≤ s.din.length →
    s.count.toNat + len < 2 ^ 61 →
    ∃ t, exec (.update len) s = .next t ∧ Answered len .ok [] s t ∧
      t.h = ((s.din.take len).foldl absorb s).h ∧
      (∀ a, t.buf.read a = ((s.din.take len).foldl absorb s).buf.read a) ∧
      t.count.toNat = s.count.toNat + len ∧
      t.blocks = s.blocks + BitVec.ofNat 32 ((s.count.toNat % 64 + len) / 64) ∧
      (s.count.toNat % 64 + len < 64 → t.h = s.h) ∧
      t.uc = s.uc ∧ t.phase = .opened ∧ t.err = s.err ∧
      (∀ a, (∀ k < len, a ≠ (s.count.toNat + k) % 64) → t.buf.read a = s.buf.read a) ∧
      (len = 0 → SameContext s t)) ∧
  (∀ (len : Nat) (s : State), s.phase = .final → len ≤ s.din.length →
    ∃ t, exec (.update len) s = .next t ∧ Refused len .phase s t) ∧
  (∀ (len : Nat) (s : State), s.phase = .opened → len ≤ s.din.length → 2 ^ 61 ≤ s.count.toNat + len →
    ∃ t, exec (.update len) s = .next t ∧ Refused len .overflow s t) ∧
  (∀ w : CmdWord, w &&& 0xFF000000 = 0x20000000 → decode w = .ok (.update (w.extractLsb' 0 24).toNat)) ∧
  IllegalWhen 2 (fun flg _ => flg ≠ 0)

/-- 40_stream_commands.md R102: `Absorb` stores the byte at the index the old `COUNT` gives, adds 1 to `COUNT`, and
compresses the 64 bytes when, and only when, the new `COUNT mod 64` is 0; the bytes are not cleared. FRAME: nothing
else changes. -/
def Obligations.AbsorbOneByte : Prop :=
  (∀ (s : State) (b : Byte), s.buf.wf = true →
    (absorb s b).count = s.count + 1#64 ∧
    (∀ a, (absorb s b).buf.read a = if a = s.count.toNat % 64 then b else s.buf.read a) ∧
    ((s.count + 1#64).toNat % 64 = 0 → (absorb s b).h = compress s.h (bufBlock (absorb s b).buf) ∧
      (absorb s b).blocks = s.blocks + 1#32) ∧
    ((s.count + 1#64).toNat % 64 ≠ 0 → (absorb s b).h = s.h ∧ (absorb s b).blocks = s.blocks) ∧
    (absorb s b).uc = s.uc ∧ (absorb s b).phase = s.phase ∧ (absorb s b).err = s.err ∧
    (absorb s b).inputs = s.inputs ∧ (absorb s b).din = s.din ∧ (absorb s b).rsp = s.rsp) ∧
  (∀ (m : List Byte) (s : State) (b : Byte), HoldsMessage m s → m.length + 1 < 2 ^ 61 →
    HoldsMessage (m ++ [b]) (absorb s b))

/-- The streaming property: two UPDATEs give the same context, in every field, as one UPDATE of both fragments
(40_stream_commands.md section 2, the law it derives there). -/
def Obligations.StreamingProperty : Prop :=
  ∀ (n₁ n₂ : Nat) (s : State), s.phase = .opened → n₁ + n₂ ≤ s.din.length → s.count.toNat + (n₁ + n₂) < 2 ^ 61 →
    ∃ t₁ t₂ u, exec (.update n₁) s = .next t₁ ∧ exec (.update n₂) t₁ = .next t₂ ∧
      exec (.update (n₁ + n₂)) s = .next u ∧ SameContext u t₂ ∧ t₂.inputs = u.inputs ∧ t₂.din = u.din

/-- The block-wise form of UPDATE leaves the same state as absorbing byte by byte (40_stream_commands.md section 2,
marked there as derived). -/
def Obligations.BlockwiseUpdateAgrees : Prop :=
  ∀ (p : List Byte) (s : State), s.count.toNat + p.length < 2 ^ 64 → blockwiseUpdate p s = absorbAll p s

/-- 40_stream_commands.md R105: FINISH on an open stream compresses the bytes staged, `0x80`, zero bytes and the
big-endian bit length, in one block when the fill level is at most 55 and in two otherwise, and closes the stream;
`BUF` holds the last block. It is refused with `PHASE` when `FINAL`, `ILLEGAL` on a non-zero field. FRAME: `COUNT`,
`UC` and `ERR` are as before. -/
def Obligations.FinishCommand : Prop :=
  (∀ s : State, s.buf.wf = true → s.phase = .opened →
    let n := s.count.toNat % 64
    let staged := (List.range n).map s.buf.read
    ∃ t, exec .finish s = .next t ∧ Answered 0 .ok [] s t ∧ t.phase = .final ∧
      t.count = s.count ∧ t.uc = s.uc ∧ t.err = s.err ∧
      (n ≤ 55 →
        let last := staged ++ [0x80] ++ List.replicate (55 - n) 0x00 ++ be64 (s.count * 8#64)
        t.h = compress s.h last ∧ t.blocks = s.blocks + 1#32 ∧ ∀ a < 64, t.buf.read a = last.getD a 0) ∧
      (56 ≤ n →
        let first := staged ++ [0x80] ++ List.replicate (63 - n) 0x00
        let last := List.replicate 56 0x00 ++ be64 (s.count * 8#64)
        t.h = compress (compress s.h first) last ∧ t.blocks = s.blocks + 2#32 ∧
          ∀ a < 64, t.buf.read a = last.getD a 0)) ∧
  (∀ s : State, s.phase = .final → ∃ t, exec .finish s = .next t ∧ Refused 0 .phase s t) ∧
  decode 0x30000000 = .ok .finish ∧ IllegalWhen 3 (fun flg arg => flg ≠ 0 ∨ arg ≠ 0)

/-- 10_state.md R28: while `OPEN`, `COUNT mod 64` is the number of valid bytes staged, and the buffer holds the tail of
the message: so after INIT or reset, UPDATE extends the message, and any step that leaves the stream open keeps it. -/
def Obligations.FillInvariant : Prop :=
  HoldsMessage [] State.reset ∧
  (∀ (uc : Bool) (s : State), ∃ t, exec (.init uc) s = .next t ∧ HoldsMessage [] t) ∧
  (∀ (m : List Byte) (len : Nat) (s : State), HoldsMessage m s → len ≤ s.din.length → m.length + len < 2 ^ 61 →
    ∃ t, exec (.update len) s = .next t ∧ HoldsMessage (m ++ s.din.take len) t) ∧
  (∀ (m : List Byte) (s t : State), HoldsMessage m s → step s = .next t → t.phase = .opened → ∃ m', HoldsMessage m' t)

/-- The padded message: after FINISH the accumulator is `Compress` folded over the blocks of `Pad(m)`, `BLOCKS` their
number; `Pad(m)` is the shortest whole number of blocks of at least `N + 9` bytes (40_stream_commands.md section 3, the
law it derives there). -/
def Obligations.FinishHashesThePaddedMessage : Prop :=
  (∀ (m : List Byte) (s : State), HoldsMessage m s →
    ∃ t, exec .finish s = .next t ∧ t.phase = .final ∧ t.h = digestOf m ∧
      t.blocks = BitVec.ofNat 32 ((pad m).length / 64) ∧ t.count = s.count ∧
      t.blocks = s.blocks + (if m.length % 64 ≤ 55 then 1 else 2)) ∧
  (∀ m : List Byte, (pad m).length % 64 = 0 ∧ m.length + 9 ≤ (pad m).length ∧ (pad m).length < m.length + 9 + 64)

/-- The machine, given the command words and payload bytes of one message cut into any fragments, answers
`OK` to each command and then the hexadecimal text of the digest of the whole message, whatever state it starts in
(10_state.md section 6, 40_stream_commands.md sections 2 and 3, 41_output_commands.md section 3). -/
def Obligations.FragmentsHashToTheDigest : Prop :=
  ∀ (uc : Bool) (fragments : List (List Byte)) (s : State),
    (∀ p ∈ fragments, p.length < 2 ^ 24) → fragments.flatten.length < 2 ^ 61 →
    s.inputs = messageInputs uc fragments → s.din = fragments.flatten →
    ∃ t, Host.Core.run core (fragments.length + 3) s = .next t ∧
      t.h = digestOf fragments.flatten ∧ t.phase = .final ∧ t.err = 0 ∧ t.inputs = [] ∧ t.din = [] ∧
      t.rsp = s.rsp ++ List.replicate (fragments.length + 2) ⟨.ok, []⟩ ++
        [⟨.ok, hexText (digestOf fragments.flatten) uc⟩]

/-! ## RDDIG, RDTEXT, RDSR (41_output_commands.md) -/

/-- 41_output_commands.md R122: RDDIG when `FINAL` responds `OK` with the 20 bytes of `DigestBytes(H)`; refused `PHASE`
when `OPEN`, `ILLEGAL` on a non-zero field. FRAME: the whole context is as before. -/
def Obligations.RddigCommand : Prop :=
  (∀ s : State, s.phase = .final →
    ∃ t, exec .rddig s = .next t ∧ SameContext s t ∧ Answered 0 .ok (digestBytes s.h) s t) ∧
  (∀ s : State, s.phase = .opened → ∃ t, exec .rddig s = .next t ∧ Refused 0 .phase s t) ∧
  decode 0x40000000 = .ok .rddig ∧ IllegalWhen 4 (fun flg arg => flg ≠ 0 ∨ arg ≠ 0)

/-- 41_output_commands.md R123: RDTEXT when `FINAL` responds `OK` with the 40 characters of `HexText(H, UC)`; refused
`PHASE` when `OPEN`, `ILLEGAL` on a non-zero field. FRAME: the whole context is as before. -/
def Obligations.RdtextCommand : Prop :=
  (∀ s : State, s.phase = .final →
    ∃ t, exec .rdtext s = .next t ∧ SameContext s t ∧ Answered 0 .ok (hexText s.h s.uc) s t) ∧
  (∀ s : State, s.phase = .opened → ∃ t, exec .rdtext s = .next t ∧ Refused 0 .phase s t) ∧
  decode 0x50000000 = .ok .rdtext ∧ IllegalWhen 5 (fun flg arg => flg ≠ 0 ∨ arg ≠ 0)

/-- 41_output_commands.md R124: RDSR in any phase responds `OK` with the 4 bytes, most significant first, of the value
its select names; a select above 3 or a non-zero `FLG` is `ILLEGAL`. FRAME: the whole context is as before. -/
def Obligations.RdsrCommand : Prop :=
  (∀ (sel : Nat) (s : State), sel ≤ 3 →
    ∃ (t : State) (v : BitVec 32), exec (.rdsr sel) s = .next t ∧ SameContext s t ∧
      Answered 0 .ok [v.extractLsb' 24 8, v.extractLsb' 16 8, v.extractLsb' 8 8, v.extractLsb' 0 8] s t ∧
      (sel = 0 → v.toNat = 16 * s.err.toNat + 2 * s.uc.toNat + (if s.phase = .final then 1 else 0)) ∧
      (sel = 1 → v = s.blocks) ∧ (sel = 2 → v.toNat = s.count.toNat % 2 ^ 32) ∧
      (sel = 3 → v.toNat = s.count.toNat / 2 ^ 32)) ∧
  (∀ (sel : Nat) (s : State), 3 < sel → ∃ t, exec (.rdsr sel) s = .next t ∧ Refused 0 .illegal s t) ∧
  (∀ w : CmdWord, w &&& 0xFFFFFFFC = 0x80000000 → decode w = .ok (.rdsr (w.extractLsb' 0 2).toNat)) ∧
  IllegalWhen 8 (fun flg arg => flg ≠ 0 ∨ 3 < arg.toNat)

/-- 10_state.md R35: the layout of `STATUS` bit by bit, and the values the other selects name; the top three bits of
`COUNT_HI` are 0 where `COUNT` is below 2^61; RDSR returns the value and writes nothing, a select above 3 is `ILLEGAL`;
only INIT, UPDATE, HASHT and HASHB write `COUNT`. -/
def Obligations.StatusValuesLayout : Prop :=
  (∀ s : State, statusValue 0 s = some (statusWord s) ∧
    (statusWord s).getLsbD 0 = decide (s.phase = .final) ∧ (statusWord s).getLsbD 1 = s.uc ∧
    (statusWord s).extractLsb' 2 2 = 0 ∧ (statusWord s).extractLsb' 4 4 = s.err ∧
    (statusWord s).extractLsb' 8 24 = 0 ∧
    statusValue 1 s = some s.blocks ∧ statusValue 2 s = some (s.count.extractLsb' 0 32) ∧
    statusValue 3 s = some (s.count.extractLsb' 32 32)) ∧
  (∀ s : State, s.count.toNat < 2 ^ 61 → (s.count.extractLsb' 32 32).extractLsb' 29 3 = 0) ∧
  (∀ (sel : Nat) (s : State) (v : BitVec 32), statusValue sel s = some v →
    ∃ t, exec (.rdsr sel) s = .next t ∧ SameContext s t ∧ Answered 0 .ok (wordBytes v) s t) ∧
  (∀ (sel : Nat) (s : State), 3 < sel → ∃ t, exec (.rdsr sel) s = .next t ∧ Refused 0 .illegal s t) ∧
  IllegalWhen 8 (fun _ arg => 3 < arg.toNat) ∧
  (∀ (i : Instr) (s t : State), exec i s = .next t → (∀ uc, i ≠ .init uc) → (∀ len, i ≠ .update len) →
    (∀ uc len, i ≠ .hasht uc len) → (∀ len, i ≠ .hashb len) → t.count = s.count)

/-- A read that succeeds changes no field of the context and, repeated, gives the same response (41_output_commands.md
section 5, the law it derives there). -/
def Obligations.ReadsAreIdempotent : Prop :=
  ∀ (c : Instr) (s t : State) (data : List Byte), c = .rddig ∨ c = .rdtext ∨ (∃ sel, c = .rdsr sel) →
    exec c s = .next t → t.rsp = s.rsp ++ [⟨.ok, data⟩] →
    SameContext s t ∧ ∃ u, exec c t = .next u ∧ SameContext s u ∧ u.rsp = t.rsp ++ [⟨.ok, data⟩]

/-- The two cases of the text differ in the letters only, and either read back as hexadecimal gives `DigestBytes(H)`
(41_output_commands.md section 5, the law it derives there). -/
def Obligations.TextCaseIndependence : Prop :=
  ∀ h : Accumulator, hexText h true = (hexText h false).map upperByte ∧
    ∀ uc : Bool, unhex (hexText h uc) = digestBytes h

/-! ## HASHT, HASHB (42_oneshot_commands.md) -/

/-- 42_oneshot_commands.md R130: HASHT completes in every phase and state with its payload there, leaves the finished
message in the whole context, its last padded block in `BUF`, and returns its text; no word of opcode 6 is refused. -/
def Obligations.HashtCommand : Prop :=
  (∀ (uc : Bool) (len : Nat) (s : State), len < 2 ^ 24 → len ≤ s.din.length →
    ∃ t, exec (.hasht uc len) s = .next t ∧ Answered len .ok (hexText t.h uc) s t ∧
      t.h = digestOf (s.din.take len) ∧ t.phase = .final ∧ t.count.toNat = len ∧ t.uc = uc ∧ t.err = 0 ∧
      t.blocks.toNat = (len + 9 + 63) / 64 ∧
      ∀ a < 64, t.buf.read a = (pad (s.din.take len)).getD ((pad (s.din.take len)).length - 64 + a) 0) ∧
  (∀ w : CmdWord, w &&& 0xF0000000 = 0x60000000 →
    decode w = .ok (.hasht (w.getLsbD 24) (w.extractLsb' 0 24).toNat))

/-- 42_oneshot_commands.md R131: HASHB completes in every phase and state with its payload there, leaves the finished
message in the whole context, with `UC = 0`, and returns its 20 bytes; a word with `FLG` not 0 is `ILLEGAL`. -/
def Obligations.HashbCommand : Prop :=
  (∀ (len : Nat) (s : State), len < 2 ^ 24 → len ≤ s.din.length →
    ∃ t, exec (.hashb len) s = .next t ∧ Answered len .ok (digestBytes t.h) s t ∧
      t.h = digestOf (s.din.take len) ∧ t.phase = .final ∧ t.count.toNat = len ∧ t.uc = false ∧ t.err = 0 ∧
      t.blocks.toNat = (len + 9 + 63) / 64 ∧
      ∀ a < 64, t.buf.read a = (pad (s.din.take len)).getD ((pad (s.din.take len)).length - 64 + a) 0) ∧
  (∀ w : CmdWord, w &&& 0xFF000000 = 0x70000000 → decode w = .ok (.hashb (w.extractLsb' 0 24).toNat)) ∧
  IllegalWhen 7 (fun flg _ => flg ≠ 0)

/-- The composition law: a one-shot command leaves the context that INIT, UPDATE, FINISH and the read leave, and gives
the response of that read (42_oneshot_commands.md, the law it derives there). -/
def Obligations.OneShotIsTheComposition : Prop :=
  (∀ (uc : Bool) (len : Nat) (s : State), len < 2 ^ 24 → len ≤ s.din.length →
    ∃ t₁ t₂ t₃ t₄ u r, exec (.init uc) s = .next t₁ ∧ exec (.update len) t₁ = .next t₂ ∧
      exec .finish t₂ = .next t₃ ∧ exec .rdtext t₃ = .next t₄ ∧ exec (.hasht uc len) s = .next u ∧
      SameContext u t₄ ∧ t₄.din = u.din ∧ t₄.rsp = t₃.rsp ++ [r] ∧ u.rsp = s.rsp ++ [r]) ∧
  (∀ (len : Nat) (s : State), len < 2 ^ 24 → len ≤ s.din.length →
    ∃ t₁ t₂ t₃ t₄ u r, exec (.init false) s = .next t₁ ∧ exec (.update len) t₁ = .next t₂ ∧
      exec .finish t₂ = .next t₃ ∧ exec .rddig t₃ = .next t₄ ∧ exec (.hashb len) s = .next u ∧
      SameContext u t₄ ∧ t₄.din = u.din ∧ t₄.rsp = t₃.rsp ++ [r] ∧ u.rsp = s.rsp ++ [r])

/-- A one-shot command's result is a function of its operands only: from any two states with the same payload bytes
next on `DIN`, it leaves the same context and gives the same response (42_oneshot_commands.md, the law it derives
there). -/
def Obligations.OneShotIgnoresTheState : Prop :=
  ∀ (uc : Bool) (len : Nat) (s s' : State), len ≤ s.din.length → s.din.take len = s'.din.take len →
    (∃ t t' r, exec (.hasht uc len) s = .next t ∧ exec (.hasht uc len) s' = .next t' ∧ SameContext t t' ∧
      t.rsp = s.rsp ++ [r] ∧ t'.rsp = s'.rsp ++ [r]) ∧
    (∃ t t' r, exec (.hashb len) s = .next t ∧ exec (.hashb len) s' = .next t' ∧ SameContext t t' ∧
      t.rsp = s.rsp ++ [r] ∧ t'.rsp = s'.rsp ++ [r])

/-! ## Refusals (60_exceptions.md) -/

/-- 60_exceptions.md R172: the phase table. A command is refused with `PHASE` exactly where the table says so, with no
effect but `ERR`, and a `PHASE` refusal leaves the finished digest readable. -/
def Obligations.PhaseTable : Prop :=
  ∀ (i : Instr) (s : State), i.payloadLen ≤ s.din.length → ∃ t r, exec i s = .next t ∧ t.rsp = s.rsp ++ [r] ∧
    (r.code = .phase ↔
      match i with
      | .update _ => s.phase = .final
      | .finish => s.phase = .final
      | .rddig => s.phase = .opened
      | .rdtext => s.phase = .opened
      | .init _ => False
      | .hasht _ _ => False
      | .hashb _ => False
      | .rdsr _ => False) ∧
    (r.code = .phase → Refused i.payloadLen .phase s t)

/-- 60_exceptions.md R173: an UPDATE of an open stream is refused with `OVERFLOW` exactly when `COUNT + LEN >= 2^61`,
as unbounded integers; then none of its bytes is absorbed, `COUNT` is unchanged and the stream stays open. -/
def Obligations.OverflowRefusal : Prop :=
  (∀ (len : Nat) (s : State), s.phase = .opened → len ≤ s.din.length →
    ∃ t r, exec (.update len) s = .next t ∧ t.rsp = s.rsp ++ [r] ∧ t.phase = .opened ∧
      (r.code = .overflow ↔ 2 ^ 61 ≤ s.count.toNat + len) ∧ (r.code = .ok ↔ s.count.toNat + len < 2 ^ 61) ∧
      (r.code = .overflow → Refused len .overflow s t)) ∧
  (∀ s : State, s.phase = .opened → s.count = 0x1FFFFFFFFFFFFFFF →
    ∃ t, exec (.update 0) s = .next t ∧ SameContext s t ∧ Answered 0 .ok [] s t)

/-- 60_exceptions.md R174: `ILLEGAL` first, then `PHASE`, then `OVERFLOW`: a word that does not decode reports
`ILLEGAL` in every phase, and an UPDATE in `FINAL` reports `PHASE` whatever its length. -/
def Obligations.RefusalPriority : Prop :=
  (∀ (s : State) w rest e, s.inputs = .command w :: rest → decode w = .error e → payloadLen w ≤ s.din.length →
    ∃ t, step s = .next t ∧ Refused (payloadLen w) .illegal { s with inputs := rest } t) ∧
  (∀ (s : State) w rest len, s.inputs = .command w :: rest → decode w = .ok (.update len) → len ≤ s.din.length →
    s.phase = .final → ∃ t, step s = .next t ∧ Refused len .phase { s with inputs := rest } t) ∧
  (∀ (s : State) w rest len, s.inputs = .command w :: rest → decode w = .ok (.update len) → len ≤ s.din.length →
    s.phase = .opened → 2 ^ 61 ≤ s.count.toNat + len →
    ∃ t, step s = .next t ∧ Refused len .overflow { s with inputs := rest } t)

/-- 60_exceptions.md R175: whenever a command's response is not `OK`, the state after it is as before in `H`, `BUF`,
`COUNT`, `BLOCKS`, `UC` and `PHASE`, `ERR` takes the first code, the payload is discarded and there are no data bytes. -/
def Obligations.RefusalsArePrecise : Prop :=
  ∀ (s t : State) w rest, s.inputs = .command w :: rest → step s = .next t →
    ∃ r, t.rsp = s.rsp ++ [r] ∧ (r.code ≠ .ok → Refused (payloadLen w) r.code { s with inputs := rest } t)

/-- `ERR` over one command: a refusal records its code when `ERR` is 0, INIT, HASHT and HASHB write 0, any other command
leaves it (10_state.md section 5, 60_exceptions.md sections 1 and 3). -/
def Obligations.ErrorFieldLifeCycle : Prop :=
  ∀ (i : Instr) (s t : State), exec i s = .next t → ∃ r, t.rsp = s.rsp ++ [r] ∧
    t.err =
      if r.code ≠ .ok then (if s.err = 0#4 then r.code.bits else s.err)
      else match i with
        | .init _ => 0
        | .hasht _ _ => 0
        | .hashb _ => 0
        | .update _ => s.err
        | .finish => s.err
        | .rddig => s.err
        | .rdtext => s.err
        | .rdsr _ => s.err

/-- `ERR` gates nothing: with another `ERR`, a command leaves the same context but `ERR` and gives the same response,
but for RDSR select 0, which reads it (60_exceptions.md section 3). -/
def Obligations.ErrorFieldGatesNothing : Prop :=
  ∀ (i : Instr) (s t : State) (e : BitVec 4), exec i s = .next t →
    ∃ t', exec i { s with err := e } = .next t' ∧ SameButErr t t' ∧ t'.inputs = t.inputs ∧ t'.din = t.din ∧
      (i ≠ .rdsr 0 → t'.rsp = t.rsp)

/-- A refusal is a function of the command word, `PHASE` and `COUNT`, never of the payload bytes: the same command from
two states that agree in `PHASE` and `COUNT` and in how many bytes stand on `DIN` is answered with the same code
(00_scope.md section 5, 60_exceptions.md section 1). -/
def Obligations.RefusalIgnoresThePayload : Prop :=
  ∀ (i : Instr) (s s' t : State), s'.phase = s.phase → s'.count = s.count → s'.din.length = s.din.length →
    exec i s = .next t →
    ∃ t' r r', exec i s' = .next t' ∧ t.rsp = s.rsp ++ [r] ∧ t'.rsp = s'.rsp ++ [r'] ∧ r'.code = r.code

/-! ## Whole-machine rules (10_state.md) -/

/-- The invariant every step keeps: the buffer's canonical form, `COUNT` below 2^61, `ERR` at most 3, `BLOCKS` the number
of blocks of the message (10_state.md sections 4 and 5). -/
def Obligations.StepKeepsInv : Prop :=
  ∀ s t : State, s.Inv → step s = .next t → t.Inv

/-- The invariant holds at reset (10_state.md section 9). -/
def Obligations.InvHoldsAtReset : Prop := State.reset.Inv

/-- 10_state.md R26: INIT and reset set `OPEN`; FINISH, HASHT and HASHB end in `FINAL`; every other command leaves
`PHASE`; so `FINAL` is left only by INIT, HASHT, HASHB or reset. -/
def Obligations.PhaseTransitions : Prop :=
  (Phase.bit .opened = 0 ∧ Phase.bit .final = 1 ∧ State.reset.phase = .opened ∧
    ∀ (s : State) rest, s.inputs = .reset :: rest → ∃ t, step s = .next t ∧ t.phase = .opened) ∧
  (∀ (i : Instr) (s t : State), exec i s = .next t → t.phase =
    match i with
    | .init _ => .opened
    | .finish => .final
    | .hasht _ _ => .final
    | .hashb _ => .final
    | .update _ => s.phase
    | .rddig => s.phase
    | .rdtext => s.phase
    | .rdsr _ => s.phase) ∧
  (∀ s t : State, step s = .next t → s.phase = .final → t.phase = .opened →
    (∃ rest, s.inputs = .reset :: rest) ∨ ∃ w rest uc, s.inputs = .command w :: rest ∧ decode w = .ok (.init uc))

/-- The digest is immutable: from `FINAL`, a step that takes neither a reset nor an INIT, HASHT or HASHB leaves `H` and
`PHASE`, so the next read gives the same bytes (10_state.md section 6). -/
def Obligations.DigestIsImmutable : Prop :=
  ∀ s t : State, s.phase = .final → step s = .next t →
    (∀ rest, s.inputs ≠ .reset :: rest) →
    (∀ w rest, s.inputs = .command w :: rest →
      (∀ uc, decode w ≠ .ok (.init uc)) ∧ (∀ uc len, decode w ≠ .ok (.hasht uc len)) ∧
        ∀ len, decode w ≠ .ok (.hashb len)) →
    t.h = s.h ∧ t.uc = s.uc ∧ t.phase = .final

/-- `UC` has no effect on the numeric digest: with another `UC`, a command leaves the same `H`, `BUF`, `COUNT`,
`BLOCKS`, `PHASE` and `ERR`, and RDDIG gives the same bytes (10_state.md section 5). -/
def Obligations.HexCaseDoesNotAffectTheDigest : Prop :=
  ∀ (i : Instr) (s t : State) (uc : Bool), exec i s = .next t →
    ∃ t', exec i { s with uc := uc } = .next t' ∧ t'.h = t.h ∧ t'.buf = t.buf ∧ t'.count = t.count ∧
      t'.blocks = t.blocks ∧ t'.phase = t.phase ∧ t'.err = t.err ∧ t'.inputs = t.inputs ∧ t'.din = t.din ∧
      (i = .rddig → t'.rsp = t.rsp)

/-- Nothing depends on `BLOCKS`: with another block counter, a command leaves the same context but `BLOCKS` and gives
the same response, but for RDSR select 1 (10_state.md section 4). -/
def Obligations.BlockCounterAffectsNothing : Prop :=
  ∀ (i : Instr) (s t : State) (n : BitVec 32), exec i s = .next t →
    ∃ t', exec i { s with blocks := n } = .next t' ∧ t'.h = t.h ∧ t'.buf = t.buf ∧ t'.count = t.count ∧
      t'.uc = t.uc ∧ t'.phase = t.phase ∧ t'.err = t.err ∧ t'.inputs = t.inputs ∧ t'.din = t.din ∧
      (i ≠ .rdsr 1 → t'.rsp = t.rsp)

/-- Stale bytes of `BUF` cannot be observed: from two states that differ at most in them, a step of one is a step of the
other with the same response, to states that differ at most in stale bytes (10_state.md section 3). -/
def Obligations.StaleBytesAreUnobservable : Prop :=
  ∀ s s' t : State, SameUpToStale s s' → step s = .next t → ∃ t', step s' = .next t' ∧ SameUpToStale t t'
end

