-- ==== Sys2Proof/Laws/Compress.lean ====
section
/-! SUPPORT. Laws/Compress.lean: the lengths and the round-by-round form of the compression round's parts. -/

namespace Sys2Proof.Machine

/-- Each four bytes give one word. -/
theorem loadWords_length (m : List Byte) : (loadWords m).length = m.length / 4 := by
  induction m using loadWords.induct with
  | case1 b0 b1 b2 b3 rest ih =>
    simp only [loadWords, List.length_cons, ih]
    omega
  | case2 m h =>
    match m with
    | [] => rfl
    | [_] => simp [loadWords]
    | [_, _] => simp [loadWords]
    | [_, _, _] => simp [loadWords]
    | b0 :: b1 :: b2 :: b3 :: rest => exact absurd rfl (h b0 b1 b2 b3 rest)

/-- `Expand` adds one word at a time. -/
theorem expand_length (n : Nat) (w : List Word) : (expand n w).length = w.length + n := by
  induction n generalizing w with
  | zero => rfl
  | succ n ih => simp only [expand, ih, List.length_append, List.length_singleton]; omega

/-- `Expand` keeps the words it starts from. -/
theorem expand_getD_of_lt (n : Nat) (w : List Word) (i : Nat) (h : i < w.length) :
    (expand n w).getD i 0 = w.getD i 0 := by
  induction n generalizing w with
  | zero => rfl
  | succ n ih =>
    rw [expand, ih _ (by simp; omega)]
    simp [List.getD_eq_getElem?_getD, List.getElem?_append_left h]

/-- The rounds over a schedule, the last one apart. -/
theorem rounds_append (t : Nat) (v : WorkVars) (ws : List Word) (w : Word) :
    rounds t v (ws ++ [w]) = roundStep (t + ws.length) (rounds t v ws) w := by
  induction ws generalizing t v with
  | nil => rfl
  | cons x ws ih =>
    rw [List.cons_append, rounds, ih, rounds, List.length_cons, show t + 1 + ws.length = t + (ws.length + 1) by omega]

end Sys2Proof.Machine
end

