-- ==== Sys2Proof/Laws/Decode.lean ====
section
/-! SUPPORT. Laws/Decode.lean: the fields of a command word and of the words the encoder writes. -/

namespace Sys2Proof

/-- Bit by bit, a word built from its fields (30_encoding.md R71). -/
theorem getLsbD_cmdWord (op flg : BitVec 4) (arg : BitVec 24) (i : Nat) :
    (cmdWord op flg arg).getLsbD i =
      if i < 24 then arg.getLsbD i else if i < 28 then flg.getLsbD (i - 24) else op.getLsbD (i - 28) := by
  have h : (cmdWord op flg arg).getLsbD i = (op ++ flg ++ arg : BitVec (4 + 4 + 24)).getLsbD i := rfl
  rw [h, BitVec.getLsbD_append, BitVec.getLsbD_append]
  by_cases h1 : i < 24
  · rw [if_pos h1, if_pos h1]
  · rw [if_neg h1, if_neg h1]
    by_cases h2 : i < 28
    · rw [if_pos h2, if_pos (by omega)]
    · rw [if_neg h2, if_neg (by omega), show i - 24 - 4 = i - 28 by omega]

@[simp] theorem opField_cmdWord (op flg : BitVec 4) (arg : BitVec 24) : opField (cmdWord op flg arg) = op := by
  apply BitVec.eq_of_getLsbD_eq
  intro i hi
  rw [opField, BitVec.getLsbD_extractLsb', getLsbD_cmdWord, if_neg (by omega), if_neg (by omega),
    show 28 + i - 28 = i by omega]
  simp [hi]

@[simp] theorem flgField_cmdWord (op flg : BitVec 4) (arg : BitVec 24) : flgField (cmdWord op flg arg) = flg := by
  apply BitVec.eq_of_getLsbD_eq
  intro i hi
  rw [flgField, BitVec.getLsbD_extractLsb', getLsbD_cmdWord, if_neg (by omega), if_pos (by omega),
    show 24 + i - 24 = i by omega]
  simp [hi]

@[simp] theorem argField_cmdWord (op flg : BitVec 4) (arg : BitVec 24) : argField (cmdWord op flg arg) = arg := by
  apply BitVec.eq_of_getLsbD_eq
  intro i hi
  rw [argField, BitVec.getLsbD_extractLsb', getLsbD_cmdWord, if_pos (by omega), Nat.zero_add]
  simp [hi]

/-- The three fields are the whole word (30_encoding.md R71). -/
theorem cmdWord_fields (w : CmdWord) : cmdWord (opField w) (flgField w) (argField w) = w := by
  apply BitVec.eq_of_getLsbD_eq
  intro i hi
  rw [getLsbD_cmdWord, opField, flgField, argField, BitVec.getLsbD_extractLsb', BitVec.getLsbD_extractLsb',
    BitVec.getLsbD_extractLsb']
  split
  · rename_i h; simp only [h, decide_true, Bool.true_and, Nat.zero_add]
  · split
    · rename_i h; simp only [show i - 24 < 4 by omega, decide_true, Bool.true_and, show 24 + (i - 24) = i by omega]
    · simp only [show i - 28 < 4 by omega, decide_true, Bool.true_and, show 28 + (i - 28) = i by omega]

/-- A mask acts on each field alone. -/
theorem cmdWord_and (op flg op' flg' : BitVec 4) (arg arg' : BitVec 24) :
    cmdWord op flg arg &&& cmdWord op' flg' arg' = cmdWord (op &&& op') (flg &&& flg') (arg &&& arg') := by
  apply BitVec.eq_of_getLsbD_eq
  intro i hi
  simp only [BitVec.getLsbD_and, getLsbD_cmdWord]
  split
  · rfl
  · split <;> rfl

/-- Two words are equal when their fields are. -/
theorem cmdWord_inj {op flg op' flg' : BitVec 4} {arg arg' : BitVec 24} :
    cmdWord op flg arg = cmdWord op' flg' arg' ↔ op = op' ∧ flg = flg' ∧ arg = arg' := by
  constructor
  · intro h
    have h1 := congrArg opField h
    have h2 := congrArg flgField h
    have h3 := congrArg argField h
    simp only [opField_cmdWord, flgField_cmdWord, argField_cmdWord] at h1 h2 h3
    exact ⟨h1, h2, h3⟩
  · rintro ⟨rfl, rfl, rfl⟩
    rfl

@[simp] theorem flagsOf_bit (uc : Bool) : (flagsOf uc).getLsbD 0 = uc := by cases uc <;> rfl

/-! ## All that `Decode` can do -/

/-- The field conditions under which `Decode` gives each of its answers (30_encoding.md R80). -/
def DecodeAnswer (w : CmdWord) : Except DecodeReject Instr → Prop
  | .ok (.init uc) => opField w = 1 ∧ argField w = 0 ∧ uc = (flgField w).getLsbD 0
  | .ok (.update len) => opField w = 2 ∧ flgField w = 0 ∧ len = (argField w).toNat
  | .ok .finish => opField w = 3 ∧ flgField w = 0 ∧ argField w = 0
  | .ok .rddig => opField w = 4 ∧ flgField w = 0 ∧ argField w = 0
  | .ok .rdtext => opField w = 5 ∧ flgField w = 0 ∧ argField w = 0
  | .ok (.hasht uc len) => opField w = 6 ∧ uc = (flgField w).getLsbD 0 ∧ len = (argField w).toNat
  | .ok (.hashb len) => opField w = 7 ∧ flgField w = 0 ∧ len = (argField w).toNat
  | .ok (.rdsr sel) => opField w = 8 ∧ flgField w = 0 ∧ (argField w).toNat ≤ 3 ∧ sel = (argField w).toNat
  | .error _ =>
    (opField w = 0 ∨ 9 ≤ (opField w).toNat) ∨ (opField w = 1 ∧ argField w ≠ 0) ∨ (opField w = 2 ∧ flgField w ≠ 0) ∨
      (opField w = 3 ∧ (flgField w ≠ 0 ∨ argField w ≠ 0)) ∨ (opField w = 4 ∧ (flgField w ≠ 0 ∨ argField w ≠ 0)) ∨
      (opField w = 5 ∧ (flgField w ≠ 0 ∨ argField w ≠ 0)) ∨ (opField w = 7 ∧ flgField w ≠ 0) ∨
      (opField w = 8 ∧ (flgField w ≠ 0 ∨ 3 < (argField w).toNat))

/-- An opcode is one of the eight or reserved. -/
theorem opcode_cases (o : BitVec 4) :
    o = 1 ∨ o = 2 ∨ o = 3 ∨ o = 4 ∨ o = 5 ∨ o = 6 ∨ o = 7 ∨ o = 8 ∨ (o = 0 ∨ 9 ≤ o.toNat) := by
  revert o
  decide

/-- Whatever `Decode` answers, its field conditions hold. -/
theorem decode_answer (w : CmdWord) : DecodeAnswer w (decode w) := by
  unfold decode
  rcases opcode_cases (opField w) with h | h | h | h | h | h | h | h | h
  · simp [h, decodeNoArg]; split <;> simp [DecodeAnswer, *]
  · simp [h, decodeNoFlags]; split <;> simp [DecodeAnswer, *]
  · simp [h, decodeNoOperand, decodeNoArg]; (repeat' split) <;> simp [DecodeAnswer, *]
  · simp [h, decodeNoOperand, decodeNoArg]; (repeat' split) <;> simp [DecodeAnswer, *]
  · simp [h, decodeNoOperand, decodeNoArg]; (repeat' split) <;> simp [DecodeAnswer, *]
  · simp [h, DecodeAnswer]
  · simp [h, decodeNoFlags]; split <;> simp [DecodeAnswer, *]
  · simp [h, decodeSelect, decodeNoFlags]; (repeat' split) <;> simp_all [DecodeAnswer]
  · have hne : ∀ k : BitVec 4, 1 ≤ k.toNat → k.toNat ≤ 8 → opField w ≠ k := by
      rintro k h1 h8 rfl
      rcases h with h | h
      · rw [h] at h1; simp at h1
      · omega
    simp only [hne 1 (by decide) (by decide), hne 2 (by decide) (by decide), hne 3 (by decide) (by decide),
      hne 4 (by decide) (by decide), hne 5 (by decide) (by decide), hne 6 (by decide) (by decide),
      hne 7 (by decide) (by decide), hne 8 (by decide) (by decide), if_false]
    exact Or.inl h

/-- A decoded command's field conditions. -/
theorem decode_ok {w : CmdWord} {i : Instr} (h : decode w = .ok i) : DecodeAnswer w (.ok i) := h ▸ decode_answer w

/-- A rejected word's field conditions. -/
theorem decode_error {w : CmdWord} {e : DecodeReject} (h : decode w = .error e) : DecodeAnswer w (.error e) :=
  h ▸ decode_answer w

end Sys2Proof
end

