-- ==== Sys2Proof/Laws/Memory.lean ====
section
/-! SUPPORT. Laws/Memory.lean: what the operations over the staging buffer do: each keeps the canonical form, and
what one byte reads as after each. -/

namespace Sys2Proof.Machine

/-! ## The canonical form -/

/-- The canonical form as a proposition. -/
theorem Memory.wf_iff (m : Memory) :
    m.wf = true ↔ m.Pairwise (fun x y => x.1 < y.1) ∧ ∀ c ∈ m, c.1 < 64 ∧ c.2 ≠ 0 := by
  simp only [Memory.wf, Memory.unlisted, Config.block, Bool.and_eq_true, decide_eq_true_eq, List.all_eq_true, bne_iff_ne]

@[simp] theorem Memory.wf_nil : Memory.wf [] = true := rfl

/-- A canonical list's tail is canonical, and its head stands below it. -/
theorem Memory.wf_cons {k : Nat} {v : Byte} {m : Memory} :
    Memory.wf ((k, v) :: m) = true ↔ (∀ c ∈ m, k < c.1) ∧ k < 64 ∧ v ≠ 0 ∧ Memory.wf m = true := by
  simp only [Memory.wf_iff, List.pairwise_cons, List.mem_cons, forall_eq_or_imp]
  tauto

@[simp] theorem Memory.read_nil (a : Nat) : Memory.read [] a = 0 := rfl

/-- Below every cell, nothing is listed. -/
theorem Memory.read_of_lt_all {m : Memory} {a : Nat} (h : ∀ c ∈ m, a < c.1) : m.read a = 0 := by
  induction m with
  | nil => rfl
  | cons c m ih =>
    obtain ⟨k, v⟩ := c
    have hk : a < k := h (k, v) (by simp)
    rw [Memory.read, if_neg (by omega)]
    exact ih fun c hc => h c (by simp [hc])

/-- A written address is the only one a write can add to the list. -/
theorem Memory.mem_write {m : Memory} {a : Nat} {b : Byte} {c : Host.Cell} (h : c ∈ m.write a b) :
    c ∈ m ∨ (c = (a, b) ∧ b ≠ 0) := by
  induction m with
  | nil =>
    rw [Memory.write] at h
    split at h
    · simp at h
    · rename_i hb
      exact Or.inr ⟨by simpa using h, hb⟩
  | cons x m ih =>
    obtain ⟨k, v⟩ := x
    rw [Memory.write] at h
    split at h
    · rcases List.mem_cons.1 h with h | h
      · exact Or.inl (by simp [h])
      · rcases ih h with h | h
        · exact Or.inl (by simp [h])
        · exact Or.inr h
    · have habove : ∀ d ∈ (if k = a then m else (k, v) :: m), d ∈ (k, v) :: m := by
        intro d hd
        split at hd
        · simp [hd]
        · exact hd
      dsimp only at h
      split at h
      · exact Or.inl (habove c h)
      · rename_i hb
        rcases List.mem_cons.1 h with h | h
        · exact Or.inr ⟨h, hb⟩
        · exact Or.inl (habove c h)

/-- A write at an address of the buffer keeps the canonical form. -/
theorem Memory.write_wf {m : Memory} {a : Nat} {b : Byte} (hm : m.wf = true) (ha : a < 64) :
    (m.write a b).wf = true := by
  induction m with
  | nil =>
    rw [Memory.write]
    split
    · rfl
    · rename_i hb
      exact Memory.wf_cons.2 ⟨by simp, ha, hb, rfl⟩
  | cons x m ih =>
    obtain ⟨k, v⟩ := x
    obtain ⟨hlt, hk, hv, htail⟩ := Memory.wf_cons.1 hm
    rw [Memory.write]
    split
    · rename_i hka
      refine Memory.wf_cons.2 ⟨?_, hk, hv, ih htail⟩
      intro c hc
      rcases Memory.mem_write hc with h | ⟨h, -⟩
      · exact hlt c h
      · simpa [h] using hka
    · rename_i hka
      have habove : (∀ c ∈ (if k = a then m else (k, v) :: m), a < c.1) ∧
          Memory.wf (if k = a then m else (k, v) :: m) = true := by
        split
        · rename_i h
          subst h
          exact ⟨hlt, htail⟩
        · refine ⟨?_, hm⟩
          intro c hc
          rcases List.mem_cons.1 hc with h | h
          · simp only [h]; omega
          · have := hlt c h; omega
      dsimp only
      split
      · exact habove.2
      · rename_i hb
        exact Memory.wf_cons.2 ⟨habove.1, ha, hb, habove.2⟩

/-- What a byte reads as after a write: the written byte at the written address, as before elsewhere. -/
theorem Memory.read_write {m : Memory} (hm : m.wf = true) (a a' : Nat) (b : Byte) :
    (m.write a b).read a' = if a' = a then b else m.read a' := by
  induction m with
  | nil =>
    rw [Memory.write]
    by_cases hb : b = Memory.unlisted
    · rw [if_pos hb, hb]; simp [Memory.read, Memory.unlisted]
    · rw [if_neg hb]
      by_cases h : a = a'
      · simp [Memory.read, h]
      · simp [Memory.read, h, Ne.symm h, Memory.unlisted]
  | cons x m ih =>
    obtain ⟨k, v⟩ := x
    obtain ⟨hlt, -, -, htail⟩ := Memory.wf_cons.1 hm
    rw [Memory.write]
    split
    · rename_i hka
      by_cases h : k = a'
      · subst h
        simp [Memory.read, show k ≠ a by omega]
      · simp only [Memory.read, if_neg h, ih htail]
    · rename_i hka
      have hbelow : Memory.read (if k = a then m else (k, v) :: m) a = 0 := by
        split
        · rename_i h
          subst h
          exact Memory.read_of_lt_all hlt
        · refine Memory.read_of_lt_all fun c hc => ?_
          rcases List.mem_cons.1 hc with h | h
          · simp only [h]; omega
          · have := hlt c h; omega
      have hother : ∀ a', a' ≠ a → Memory.read (if k = a then m else (k, v) :: m) a' = Memory.read ((k, v) :: m) a' := by
        intro a' ha'
        split
        · rename_i h
          rw [Memory.read, if_neg (by omega)]
        · rfl
      dsimp only
      split
      · rename_i hb
        by_cases h : a' = a
        · subst h; rw [if_pos rfl, hbelow, hb]; rfl
        · rw [if_neg h, hother a' h]
      · by_cases h : a' = a
        · subst h; simp [Memory.read]
        · rw [if_neg h, ← hother a' h, Memory.read, if_neg (Ne.symm h)]

/-- The canonical form is one: two canonical lists that read alike are the same list. -/
theorem Memory.ext_of_read {m m' : Memory} (hm : m.wf = true) (hm' : m'.wf = true)
    (h : ∀ a, m.read a = m'.read a) : m = m' := by
  induction m generalizing m' with
  | nil =>
    cases m' with
    | nil => rfl
    | cons x m' =>
      obtain ⟨k, v⟩ := x
      have := h k
      simp [Memory.read] at this
      exact absurd this.symm (Memory.wf_cons.1 hm').2.2.1
  | cons x m ih =>
    obtain ⟨k, v⟩ := x
    obtain ⟨hlt, -, hv, htail⟩ := Memory.wf_cons.1 hm
    cases m' with
    | nil =>
      have := h k
      simp [Memory.read] at this
      exact absurd this hv
    | cons y m' =>
      obtain ⟨k', v'⟩ := y
      obtain ⟨hlt', -, hv', htail'⟩ := Memory.wf_cons.1 hm'
      have hk : k = k' := by
        rcases Nat.lt_trichotomy k k' with hlt1 | heq | hlt1
        · have := h k
          rw [Memory.read, if_pos rfl, Memory.read_of_lt_all] at this
          · exact absurd this hv
          · intro c hc
            rcases List.mem_cons.1 hc with h | h
            · simpa [h] using hlt1
            · have := hlt' c h; omega
        · exact heq
        · have := h k'
          rw [Memory.read_of_lt_all, Memory.read, if_pos rfl] at this
          · exact absurd this.symm hv'
          · intro c hc
            rcases List.mem_cons.1 hc with h | h
            · simpa [h] using hlt1
            · have := hlt c h; omega
      subst hk
      have hvv : v = v' := by simpa [Memory.read] using h k
      subst hvv
      congr 1
      refine ih htail htail' fun a => ?_
      by_cases ha : k = a
      · subst ha
        rw [Memory.read_of_lt_all hlt, Memory.read_of_lt_all hlt']
      · simpa [Memory.read, ha] using h a

/-! ## The wider operations -/

/-- `MemWrite` within the buffer keeps the canonical form. -/
theorem memWrite_wf {m : Memory} (hm : m.wf = true) (addr n : Nat) (v : BitVec (8 * n)) (h : addr + n ≤ 64) :
    (memWrite m addr n v).wf = true := by
  induction n with
  | zero => exact hm
  | succ n ih => exact Memory.write_wf (ih _ (by omega)) (by omega)

/-- What a byte reads as after `MemWrite`: byte `k` of the field is bits `8(n-1-k)+7` to `8(n-1-k)` of the value. -/
theorem read_memWrite {m : Memory} (hm : m.wf = true) (addr n : Nat) (v : BitVec (8 * n)) (h : addr + n ≤ 64)
    (a : Nat) :
    (memWrite m addr n v).read a =
      if addr ≤ a ∧ a < addr + n then v.extractLsb' (8 * (n - 1 - (a - addr))) 8 else m.read a := by
  induction n with
  | zero => rw [if_neg (by omega)]; rfl
  | succ n ih =>
    rw [memWrite, Memory.read_write (memWrite_wf hm addr n _ (by omega)), ih _ (by omega)]
    by_cases h1 : a = addr + n
    · subst h1
      rw [if_pos rfl, if_pos (by omega), show 8 * (n + 1 - 1 - (addr + n - addr)) = 0 by omega]
    · rw [if_neg h1]
      by_cases h2 : addr ≤ a ∧ a < addr + n
      · rw [if_pos h2, if_pos (by omega), show 8 * (n + 1 - 1 - (a - addr)) = 8 * (n - 1 - (a - addr)) + 8 by omega]
        apply BitVec.eq_of_getLsbD_eq
        intro i hi
        simp only [BitVec.getLsbD_extractLsb', hi, decide_true, Bool.true_and]
        have hlt : 8 * (n - 1 - (a - addr)) + i < 8 * n := by omega
        simp only [hlt, decide_true, Bool.true_and]
        congr 1
        omega
      · rw [if_neg h2, if_neg (by omega)]

/-- Zeroing within the buffer keeps the canonical form. -/
theorem zeroFill_wf {m : Memory} (hm : m.wf = true) (lo n : Nat) (h : lo + n ≤ 64) : (zeroFill m lo n).wf = true := by
  induction n with
  | zero => exact hm
  | succ n ih => exact Memory.write_wf (ih (by omega)) (by omega)

/-- What a byte reads as after zeroing: 0 in the range, as before elsewhere. -/
theorem read_zeroFill {m : Memory} (hm : m.wf = true) (lo n : Nat) (h : lo + n ≤ 64) (a : Nat) :
    (zeroFill m lo n).read a = if lo ≤ a ∧ a < lo + n then 0 else m.read a := by
  induction n with
  | zero => rw [if_neg (by omega)]; rfl
  | succ n ih =>
    rw [zeroFill, Memory.read_write (zeroFill_wf hm lo n (by omega)), ih (by omega)]
    by_cases h1 : a = lo + n
    · rw [if_pos h1, if_pos (by omega)]
    · rw [if_neg h1]
      by_cases h2 : lo ≤ a ∧ a < lo + n
      · rw [if_pos h2, if_pos (by omega)]
      · rw [if_neg h2, if_neg (by omega)]

/-! ## The block -/

@[simp] theorem bufBlock_length (m : Memory) : (bufBlock m).length = 64 := by
  induction m with
  | nil => simp [bufBlock]
  | cons c m ih => rw [bufBlock, List.length_set, ih]

/-- Byte `i` of the block is `BUF[i]`. -/
theorem bufBlock_getElem (m : Memory) (i : Nat) (h : i < (bufBlock m).length) : (bufBlock m)[i] = m.read i := by
  induction m with
  | nil => simp [bufBlock, Memory.unlisted]
  | cons c m ih =>
    simp only [bufBlock, List.getElem_set, Memory.read]
    split
    · rfl
    · exact ih (by simpa using h)

/-- The block, address by address. -/
theorem bufBlock_eq_map (m : Memory) : bufBlock m = (List.range 64).map m.read :=
  List.ext_getElem (by simp) fun i h _ => by simp [bufBlock_getElem m i h]

/-- The block depends on the 64 bytes alone. -/
theorem bufBlock_congr {m m' : Memory} (h : ∀ a < 64, m.read a = m'.read a) : bufBlock m = bufBlock m' := by
  rw [bufBlock_eq_map, bufBlock_eq_map]
  exact List.map_congr_left fun a ha => h a (by simpa using ha)

end Sys2Proof.Machine
end

