-- ==== Sys2Proof/Laws/State.lean ====
section
/-! SUPPORT. Laws/State.lean: one lemma per field per state update, so that no proof unfolds a record update. -/

namespace Sys2Proof.Machine

/-! ## respond -/

@[simp] theorem respond_h (c : Code) (d : List Byte) (s : State) : (respond c d s).h = s.h := rfl
@[simp] theorem respond_buf (c : Code) (d : List Byte) (s : State) : (respond c d s).buf = s.buf := rfl
@[simp] theorem respond_count (c : Code) (d : List Byte) (s : State) : (respond c d s).count = s.count := rfl
@[simp] theorem respond_blocks (c : Code) (d : List Byte) (s : State) : (respond c d s).blocks = s.blocks := rfl
@[simp] theorem respond_uc (c : Code) (d : List Byte) (s : State) : (respond c d s).uc = s.uc := rfl
@[simp] theorem respond_phase (c : Code) (d : List Byte) (s : State) : (respond c d s).phase = s.phase := rfl
@[simp] theorem respond_err (c : Code) (d : List Byte) (s : State) : (respond c d s).err = s.err := rfl
@[simp] theorem respond_inputs (c : Code) (d : List Byte) (s : State) : (respond c d s).inputs = s.inputs := rfl
@[simp] theorem respond_din (c : Code) (d : List Byte) (s : State) : (respond c d s).din = s.din := rfl
@[simp] theorem respond_rsp (c : Code) (d : List Byte) (s : State) : (respond c d s).rsp = s.rsp ++ [⟨c, d⟩] := rfl

/-! ## recordError -/

@[simp] theorem recordError_h (c : Code) (s : State) : (recordError c s).h = s.h := by
  unfold recordError; split <;> rfl
@[simp] theorem recordError_buf (c : Code) (s : State) : (recordError c s).buf = s.buf := by
  unfold recordError; split <;> rfl
@[simp] theorem recordError_count (c : Code) (s : State) : (recordError c s).count = s.count := by
  unfold recordError; split <;> rfl
@[simp] theorem recordError_blocks (c : Code) (s : State) : (recordError c s).blocks = s.blocks := by
  unfold recordError; split <;> rfl
@[simp] theorem recordError_uc (c : Code) (s : State) : (recordError c s).uc = s.uc := by
  unfold recordError; split <;> rfl
@[simp] theorem recordError_phase (c : Code) (s : State) : (recordError c s).phase = s.phase := by
  unfold recordError; split <;> rfl
@[simp] theorem recordError_err (c : Code) (s : State) : (recordError c s).err = if s.err = 0#4 then c.bits else s.err := by
  unfold recordError; split <;> rfl
@[simp] theorem recordError_inputs (c : Code) (s : State) : (recordError c s).inputs = s.inputs := by
  unfold recordError; split <;> rfl
@[simp] theorem recordError_din (c : Code) (s : State) : (recordError c s).din = s.din := by
  unfold recordError; split <;> rfl
@[simp] theorem recordError_rsp (c : Code) (s : State) : (recordError c s).rsp = s.rsp := by
  unfold recordError; split <;> rfl

/-! ## initContext and resetContext -/

@[simp] theorem initContext_h (uc : Bool) (s : State) : (initContext uc s).h = Accumulator.initial := rfl
@[simp] theorem initContext_buf (uc : Bool) (s : State) : (initContext uc s).buf = [] := rfl
@[simp] theorem initContext_count (uc : Bool) (s : State) : (initContext uc s).count = 0 := rfl
@[simp] theorem initContext_blocks (uc : Bool) (s : State) : (initContext uc s).blocks = 0 := rfl
@[simp] theorem initContext_uc (uc : Bool) (s : State) : (initContext uc s).uc = uc := rfl
@[simp] theorem initContext_phase (uc : Bool) (s : State) : (initContext uc s).phase = .opened := rfl
@[simp] theorem initContext_err (uc : Bool) (s : State) : (initContext uc s).err = 0 := rfl
@[simp] theorem initContext_inputs (uc : Bool) (s : State) : (initContext uc s).inputs = s.inputs := rfl
@[simp] theorem initContext_din (uc : Bool) (s : State) : (initContext uc s).din = s.din := rfl
@[simp] theorem initContext_rsp (uc : Bool) (s : State) : (initContext uc s).rsp = s.rsp := rfl

@[simp] theorem resetContext_h (s : State) : (resetContext s).h = Accumulator.initial := rfl
@[simp] theorem resetContext_buf (s : State) : (resetContext s).buf = [] := rfl
@[simp] theorem resetContext_count (s : State) : (resetContext s).count = 0 := rfl
@[simp] theorem resetContext_blocks (s : State) : (resetContext s).blocks = 0 := rfl
@[simp] theorem resetContext_uc (s : State) : (resetContext s).uc = false := rfl
@[simp] theorem resetContext_phase (s : State) : (resetContext s).phase = .opened := rfl
@[simp] theorem resetContext_err (s : State) : (resetContext s).err = 0 := rfl
@[simp] theorem resetContext_inputs (s : State) : (resetContext s).inputs = s.inputs := rfl
@[simp] theorem resetContext_din (s : State) : (resetContext s).din = s.din := rfl
@[simp] theorem resetContext_rsp (s : State) : (resetContext s).rsp = s.rsp := rfl

/-! ## compressBuf -/

@[simp] theorem compressBuf_h (s : State) : (compressBuf s).h = compress s.h (bufBlock s.buf) := by
  simp only [compressBuf]
@[simp] theorem compressBuf_buf (s : State) : (compressBuf s).buf = s.buf := by
  simp only [compressBuf]
@[simp] theorem compressBuf_count (s : State) : (compressBuf s).count = s.count := by
  simp only [compressBuf]
@[simp] theorem compressBuf_blocks (s : State) : (compressBuf s).blocks = s.blocks + 1#32 := by
  simp only [compressBuf]
@[simp] theorem compressBuf_uc (s : State) : (compressBuf s).uc = s.uc := by
  simp only [compressBuf]
@[simp] theorem compressBuf_phase (s : State) : (compressBuf s).phase = s.phase := by
  simp only [compressBuf]
@[simp] theorem compressBuf_err (s : State) : (compressBuf s).err = s.err := by
  simp only [compressBuf]
@[simp] theorem compressBuf_inputs (s : State) : (compressBuf s).inputs = s.inputs := by
  simp only [compressBuf]
@[simp] theorem compressBuf_din (s : State) : (compressBuf s).din = s.din := by
  simp only [compressBuf]
@[simp] theorem compressBuf_rsp (s : State) : (compressBuf s).rsp = s.rsp := by
  simp only [compressBuf]

/-! ## stage -/

@[simp] theorem stage_h (b : Byte) (s : State) : (stage b s).h = s.h := rfl
@[simp] theorem stage_buf (b : Byte) (s : State) : (stage b s).buf = s.buf.write (fillLevel s) b := rfl
@[simp] theorem stage_count (b : Byte) (s : State) : (stage b s).count = s.count + 1#64 := rfl
@[simp] theorem stage_blocks (b : Byte) (s : State) : (stage b s).blocks = s.blocks := rfl
@[simp] theorem stage_uc (b : Byte) (s : State) : (stage b s).uc = s.uc := rfl
@[simp] theorem stage_phase (b : Byte) (s : State) : (stage b s).phase = s.phase := rfl
@[simp] theorem stage_err (b : Byte) (s : State) : (stage b s).err = s.err := rfl
@[simp] theorem stage_inputs (b : Byte) (s : State) : (stage b s).inputs = s.inputs := rfl
@[simp] theorem stage_din (b : Byte) (s : State) : (stage b s).din = s.din := rfl
@[simp] theorem stage_rsp (b : Byte) (s : State) : (stage b s).rsp = s.rsp := rfl

/-! ## absorb: the fields it may write are `absorb_cases` in Laws/Stream.lean -/

@[simp] theorem absorb_buf (s : State) (b : Byte) : (absorb s b).buf = s.buf.write (fillLevel s) b := by
  unfold absorb; split <;> simp only [compressBuf, stage]
@[simp] theorem absorb_count (s : State) (b : Byte) : (absorb s b).count = s.count + 1#64 := by
  unfold absorb; split <;> simp only [compressBuf, stage]
@[simp] theorem absorb_uc (s : State) (b : Byte) : (absorb s b).uc = s.uc := by
  unfold absorb; split <;> simp only [compressBuf, stage]
@[simp] theorem absorb_phase (s : State) (b : Byte) : (absorb s b).phase = s.phase := by
  unfold absorb; split <;> simp only [compressBuf, stage]
@[simp] theorem absorb_err (s : State) (b : Byte) : (absorb s b).err = s.err := by
  unfold absorb; split <;> simp only [compressBuf, stage]
@[simp] theorem absorb_inputs (s : State) (b : Byte) : (absorb s b).inputs = s.inputs := by
  unfold absorb; split <;> simp only [compressBuf, stage]
@[simp] theorem absorb_din (s : State) (b : Byte) : (absorb s b).din = s.din := by
  unfold absorb; split <;> simp only [compressBuf, stage]
@[simp] theorem absorb_rsp (s : State) (b : Byte) : (absorb s b).rsp = s.rsp := by
  unfold absorb; split <;> simp only [compressBuf, stage]

/-! ## absorbAll -/

@[simp] theorem absorbAll_nil (s : State) : absorbAll [] s = s := rfl
@[simp] theorem absorbAll_cons (b : Byte) (p : List Byte) (s : State) : absorbAll (b :: p) s = absorbAll p (absorb s b) := rfl
theorem absorbAll_append (p q : List Byte) (s : State) : absorbAll (p ++ q) s = absorbAll q (absorbAll p s) :=
  List.foldl_append
@[simp] theorem absorbAll_uc (p : List Byte) (s : State) : (absorbAll p s).uc = s.uc := by
  induction p generalizing s with
  | nil => rfl
  | cons b p ih => simp [ih]
@[simp] theorem absorbAll_phase (p : List Byte) (s : State) : (absorbAll p s).phase = s.phase := by
  induction p generalizing s with
  | nil => rfl
  | cons b p ih => simp [ih]
@[simp] theorem absorbAll_err (p : List Byte) (s : State) : (absorbAll p s).err = s.err := by
  induction p generalizing s with
  | nil => rfl
  | cons b p ih => simp [ih]
@[simp] theorem absorbAll_inputs (p : List Byte) (s : State) : (absorbAll p s).inputs = s.inputs := by
  induction p generalizing s with
  | nil => rfl
  | cons b p ih => simp [ih]
@[simp] theorem absorbAll_din (p : List Byte) (s : State) : (absorbAll p s).din = s.din := by
  induction p generalizing s with
  | nil => rfl
  | cons b p ih => simp [ih]
@[simp] theorem absorbAll_rsp (p : List Byte) (s : State) : (absorbAll p s).rsp = s.rsp := by
  induction p generalizing s with
  | nil => rfl
  | cons b p ih => simp [ih]

/-! ## lengthBlock and closeStream -/

@[simp] theorem lengthBlock_h (l : BitVec 64) (s : State) : (lengthBlock l s).h = compress s.h (bufBlock (memWrite s.buf 56 8 l)) := by
  simp only [lengthBlock, compressBuf]
@[simp] theorem lengthBlock_buf (l : BitVec 64) (s : State) : (lengthBlock l s).buf = memWrite s.buf 56 8 l := by
  simp only [lengthBlock, compressBuf]
@[simp] theorem lengthBlock_count (l : BitVec 64) (s : State) : (lengthBlock l s).count = s.count := by
  simp only [lengthBlock, compressBuf]
@[simp] theorem lengthBlock_blocks (l : BitVec 64) (s : State) : (lengthBlock l s).blocks = s.blocks + 1#32 := by
  simp only [lengthBlock, compressBuf]
@[simp] theorem lengthBlock_uc (l : BitVec 64) (s : State) : (lengthBlock l s).uc = s.uc := by
  simp only [lengthBlock, compressBuf]
@[simp] theorem lengthBlock_phase (l : BitVec 64) (s : State) : (lengthBlock l s).phase = s.phase := by
  simp only [lengthBlock, compressBuf]
@[simp] theorem lengthBlock_err (l : BitVec 64) (s : State) : (lengthBlock l s).err = s.err := by
  simp only [lengthBlock, compressBuf]
@[simp] theorem lengthBlock_inputs (l : BitVec 64) (s : State) : (lengthBlock l s).inputs = s.inputs := by
  simp only [lengthBlock, compressBuf]
@[simp] theorem lengthBlock_din (l : BitVec 64) (s : State) : (lengthBlock l s).din = s.din := by
  simp only [lengthBlock, compressBuf]
@[simp] theorem lengthBlock_rsp (l : BitVec 64) (s : State) : (lengthBlock l s).rsp = s.rsp := by
  simp only [lengthBlock, compressBuf]

@[simp] theorem closeStream_phase (s : State) : (closeStream s).phase = .final := by
  simp only [closeStream]
@[simp] theorem closeStream_count (s : State) : (closeStream s).count = s.count := by
  unfold closeStream; dsimp only; split <;> simp only [lengthBlock, compressBuf]
@[simp] theorem closeStream_uc (s : State) : (closeStream s).uc = s.uc := by
  unfold closeStream; dsimp only; split <;> simp only [lengthBlock, compressBuf]
@[simp] theorem closeStream_err (s : State) : (closeStream s).err = s.err := by
  unfold closeStream; dsimp only; split <;> simp only [lengthBlock, compressBuf]
@[simp] theorem closeStream_inputs (s : State) : (closeStream s).inputs = s.inputs := by
  unfold closeStream; dsimp only; split <;> simp only [lengthBlock, compressBuf]
@[simp] theorem closeStream_din (s : State) : (closeStream s).din = s.din := by
  unfold closeStream; dsimp only; split <;> simp only [lengthBlock, compressBuf]
@[simp] theorem closeStream_rsp (s : State) : (closeStream s).rsp = s.rsp := by
  unfold closeStream; dsimp only; split <;> simp only [lengthBlock, compressBuf]

/-! ## The ports -/

@[simp] theorem dropInput_h (s : State) : (dropInput s).h = s.h := rfl
@[simp] theorem dropInput_buf (s : State) : (dropInput s).buf = s.buf := rfl
@[simp] theorem dropInput_count (s : State) : (dropInput s).count = s.count := rfl
@[simp] theorem dropInput_blocks (s : State) : (dropInput s).blocks = s.blocks := rfl
@[simp] theorem dropInput_uc (s : State) : (dropInput s).uc = s.uc := rfl
@[simp] theorem dropInput_phase (s : State) : (dropInput s).phase = s.phase := rfl
@[simp] theorem dropInput_err (s : State) : (dropInput s).err = s.err := rfl
@[simp] theorem dropInput_inputs (s : State) : (dropInput s).inputs = s.inputs.tail := rfl
@[simp] theorem dropInput_din (s : State) : (dropInput s).din = s.din := rfl
@[simp] theorem dropInput_rsp (s : State) : (dropInput s).rsp = s.rsp := rfl

@[simp] theorem offerFirst_h (w : CmdWord) (p : List Byte) (s : State) : (offerFirst w p s).h = s.h := rfl
@[simp] theorem offerFirst_buf (w : CmdWord) (p : List Byte) (s : State) : (offerFirst w p s).buf = s.buf := rfl
@[simp] theorem offerFirst_count (w : CmdWord) (p : List Byte) (s : State) : (offerFirst w p s).count = s.count := rfl
@[simp] theorem offerFirst_blocks (w : CmdWord) (p : List Byte) (s : State) : (offerFirst w p s).blocks = s.blocks := rfl
@[simp] theorem offerFirst_uc (w : CmdWord) (p : List Byte) (s : State) : (offerFirst w p s).uc = s.uc := rfl
@[simp] theorem offerFirst_phase (w : CmdWord) (p : List Byte) (s : State) : (offerFirst w p s).phase = s.phase := rfl
@[simp] theorem offerFirst_err (w : CmdWord) (p : List Byte) (s : State) : (offerFirst w p s).err = s.err := rfl
@[simp] theorem offerFirst_inputs (w : CmdWord) (p : List Byte) (s : State) : (offerFirst w p s).inputs = .command w :: s.inputs := rfl
@[simp] theorem offerFirst_din (w : CmdWord) (p : List Byte) (s : State) : (offerFirst w p s).din = p ++ s.din := rfl
@[simp] theorem offerFirst_rsp (w : CmdWord) (p : List Byte) (s : State) : (offerFirst w p s).rsp = s.rsp := rfl

/-! ## hashPayload -/

@[simp] theorem hashPayload_phase (uc : Bool) (p : List Byte) (s : State) : (hashPayload uc p s).phase = .final := by
  simp only [hashPayload, closeStream_phase]
@[simp] theorem hashPayload_uc (uc : Bool) (p : List Byte) (s : State) : (hashPayload uc p s).uc = uc := by
  simp [hashPayload]
@[simp] theorem hashPayload_err (uc : Bool) (p : List Byte) (s : State) : (hashPayload uc p s).err = 0 := by
  simp [hashPayload]
@[simp] theorem hashPayload_inputs (uc : Bool) (p : List Byte) (s : State) : (hashPayload uc p s).inputs = s.inputs := by
  simp [hashPayload]
@[simp] theorem hashPayload_din (uc : Bool) (p : List Byte) (s : State) : (hashPayload uc p s).din = s.din := by
  simp [hashPayload]
@[simp] theorem hashPayload_rsp (uc : Bool) (p : List Byte) (s : State) : (hashPayload uc p s).rsp = s.rsp := by
  simp [hashPayload]

end Sys2Proof.Machine
end

