-- ==== Sys2Proof/Laws/Ops.lean ====
section
/-! SUPPORT. Laws/Ops.lean: for each shared operation one lemma that says what it can do, which later proofs cite
instead of unfolding it. -/

namespace Sys2Proof.Machine

/-! ## The payload -/

/-- The state in which a command with `n` payload bytes acts: those bytes are off `DIN`. -/
def afterPayload (n : Nat) (s : State) : State := { s with din := s.din.drop n }

@[simp] theorem afterPayload_h (n : Nat) (s : State) : (afterPayload n s).h = s.h := rfl
@[simp] theorem afterPayload_buf (n : Nat) (s : State) : (afterPayload n s).buf = s.buf := rfl
@[simp] theorem afterPayload_count (n : Nat) (s : State) : (afterPayload n s).count = s.count := rfl
@[simp] theorem afterPayload_blocks (n : Nat) (s : State) : (afterPayload n s).blocks = s.blocks := rfl
@[simp] theorem afterPayload_uc (n : Nat) (s : State) : (afterPayload n s).uc = s.uc := rfl
@[simp] theorem afterPayload_phase (n : Nat) (s : State) : (afterPayload n s).phase = s.phase := rfl
@[simp] theorem afterPayload_err (n : Nat) (s : State) : (afterPayload n s).err = s.err := rfl
@[simp] theorem afterPayload_inputs (n : Nat) (s : State) : (afterPayload n s).inputs = s.inputs := rfl
@[simp] theorem afterPayload_din (n : Nat) (s : State) : (afterPayload n s).din = s.din.drop n := rfl
@[simp] theorem afterPayload_rsp (n : Nat) (s : State) : (afterPayload n s).rsp = s.rsp := rfl

/-- With its payload there, a command goes on with exactly those bytes, the rest left on `DIN`. -/
theorem withPayload_of_le {n : Nat} {s : State} {k : List Byte → State → Result} (h : n ≤ s.din.length) :
    withPayload n s k = k (s.din.take n) (afterPayload n s) := if_pos h

/-- With too few bytes it is stuck. -/
theorem withPayload_of_lt {n : Nat} {s : State} {k : List Byte → State → Result} (h : s.din.length < n) :
    withPayload n s k = .fault .payloadStarved := if_neg (by omega)

/-- All a command that takes a payload can do. -/
theorem withPayload_next {n : Nat} {s t : State} {k : List Byte → State → Result} (h : withPayload n s k = .next t) :
    n ≤ s.din.length ∧ k (s.din.take n) (afterPayload n s) = .next t := by
  by_cases hn : n ≤ s.din.length
  · exact ⟨hn, by rwa [withPayload_of_le hn] at h⟩
  · rw [withPayload_of_lt (by omega)] at h
    cases h

/-! ## The refusal -/

/-- A refusal is one state: `ERR` recorded, one response without data. -/
theorem refuse_next {c : Code} {s t : State} : refuse c s = .next t ↔ t = respond c [] (recordError c s) := by
  rw [refuse]
  constructor
  · intro h; cases h; rfl
  · rintro rfl; rfl

/-! ## Staging and absorbing -/

/-- The fill level is an index of the buffer. -/
theorem fillLevel_lt (s : State) : fillLevel s < 64 := Nat.mod_lt _ (by decide)

/-- The fill level after staging a byte: one more, wrapping from 63 to 0 (20_memory.md R65). -/
theorem fillLevel_stage (b : Byte) (s : State) : fillLevel (stage b s) = (fillLevel s + 1) % 64 := by
  simp only [fillLevel, stage_count, Config.block, BitVec.toNat_add, BitVec.toNat_ofNat]
  omega

/-- All `Absorb` can do: stage the byte and, when that fills the block, compress. -/
theorem absorb_cases (s : State) (b : Byte) :
    (fillLevel s = 63 ∧ absorb s b = compressBuf (stage b s)) ∨ (fillLevel s < 63 ∧ absorb s b = stage b s) := by
  have h := fillLevel_stage b s
  have := fillLevel_lt s
  unfold absorb
  by_cases h63 : fillLevel s = 63
  · exact Or.inl ⟨h63, if_pos (by omega)⟩
  · exact Or.inr ⟨by omega, if_neg (by omega)⟩

/-- `Absorb` keeps the buffer's canonical form. -/
theorem absorb_wf {s : State} (h : s.buf.wf = true) (b : Byte) : (absorb s b).buf.wf = true := by
  rw [absorb_buf]
  exact Memory.write_wf h (fillLevel_lt s)

/-- Absorbing a payload keeps the buffer's canonical form. -/
theorem absorbAll_wf {s : State} (h : s.buf.wf = true) (p : List Byte) : (absorbAll p s).buf.wf = true := by
  induction p generalizing s with
  | nil => exact h
  | cons b p ih => exact ih (absorb_wf h b)

/-- Absorbing a payload adds its length to `COUNT` (10_state.md R23). -/
theorem absorbAll_count (p : List Byte) (s : State) :
    (absorbAll p s).count = s.count + BitVec.ofNat 64 p.length := by
  induction p generalizing s with
  | nil => simp
  | cons b p ih =>
    rw [absorbAll_cons, ih, absorb_count]
    apply BitVec.eq_of_toNat_eq
    simp only [BitVec.toNat_add, BitVec.toNat_ofNat, List.length_cons]
    omega

/-- Absorbing a payload counts one block each time the fill level wraps (10_state.md R24). -/
theorem absorbAll_blocks (p : List Byte) (s : State) :
    (absorbAll p s).blocks = s.blocks + BitVec.ofNat 32 ((fillLevel s + p.length) / 64) := by
  induction p generalizing s with
  | nil =>
    rw [absorbAll_nil, List.length_nil, Nat.add_zero, Nat.div_eq_of_lt (fillLevel_lt s)]
    simp
  | cons b p ih =>
    rw [absorbAll_cons, ih]
    have hs := fillLevel_stage b s
    rcases absorb_cases s b with ⟨hf, h⟩ | ⟨hf, h⟩
    · have hl : fillLevel (absorb s b) = 0 := by
        simp only [fillLevel, absorb_count, stage_count] at hs hf ⊢; omega
      rw [hl, h, compressBuf_blocks, stage_blocks, List.length_cons,
        show (fillLevel s + (p.length + 1)) / 64 = (0 + p.length) / 64 + 1 by omega]
      apply BitVec.eq_of_toNat_eq
      simp only [BitVec.toNat_add, BitVec.toNat_ofNat]
      omega
    · have hl : fillLevel (absorb s b) = fillLevel s + 1 := by
        simp only [fillLevel, absorb_count, stage_count] at hs hf ⊢; omega
      rw [hl, h, stage_blocks, List.length_cons, show fillLevel s + 1 + p.length = fillLevel s + (p.length + 1) by omega]

/-! ## Closing the stream -/

/-- All the padding of FINISH can do: the memory compressed last, and the one compressed before it when the length
does not fit (40_stream_commands.md R105). -/
theorem closeStream_cases (s : State) :
    (fillLevel s ≤ 55 ∧
      (closeStream s).buf =
        memWrite (zeroFill (s.buf.write (fillLevel s) 0x80) (fillLevel s + 1) (55 - fillLevel s)) 56 8 (bitLength s) ∧
      (closeStream s).h = compress s.h (bufBlock (closeStream s).buf) ∧
      (closeStream s).blocks = s.blocks + 1#32) ∨
    (56 ≤ fillLevel s ∧ ∃ first,
      first = zeroFill (s.buf.write (fillLevel s) 0x80) (fillLevel s + 1) (63 - fillLevel s) ∧
      (closeStream s).buf = memWrite (zeroFill first 0 56) 56 8 (bitLength s) ∧
      (closeStream s).h = compress (compress s.h (bufBlock first)) (bufBlock (closeStream s).buf) ∧
      (closeStream s).blocks = s.blocks + 1#32 + 1#32) := by
  by_cases h : fillLevel s ≤ 55
  · left
    refine ⟨h, ?_, ?_, ?_⟩ <;>
      simp only [closeStream, if_pos h, lengthBlock_buf, lengthBlock_h, lengthBlock_blocks]
  · right
    refine ⟨by omega, _, rfl, ?_, ?_, ?_⟩ <;>
      simp only [closeStream, if_neg h, lengthBlock_buf, lengthBlock_h, lengthBlock_blocks, compressBuf_buf, compressBuf_h,
        compressBuf_blocks]

/-- The padding of FINISH keeps the buffer's canonical form. -/
theorem closeStream_wf {s : State} (h : s.buf.wf = true) : (closeStream s).buf.wf = true := by
  have hlt := fillLevel_lt s
  have hw := Memory.write_wf (b := 0x80) h hlt
  rcases closeStream_cases s with ⟨hf, hb, -, -⟩ | ⟨hf, first, hfirst, hb, -, -⟩
  · rw [hb]
    exact memWrite_wf (zeroFill_wf hw _ _ (by omega)) _ _ _ (by omega)
  · rw [hb, hfirst]
    exact memWrite_wf (zeroFill_wf (zeroFill_wf hw _ _ (by omega)) _ _ (by omega)) _ _ _ (by omega)

end Sys2Proof.Machine
end

