-- ==== Sys2Proof/Laws/Exec.lean ====
section
/-! SUPPORT. Laws/Exec.lean: all that one command can do, said once (`exec_next`), and when it has a next state
(`exec_next_of_payload`); proofs about commands cite these instead of unfolding the meanings. -/

namespace Sys2Proof.Machine

/-- The state a refusal leaves (60_exceptions.md R170). -/
def refusedState (c : Code) (s : State) : State := respond c [] (recordError c s)

/-- What each command's next state can be. -/
inductive CommandAnswer : Instr → State → State → Prop where
  | init (uc : Bool) (s : State) : CommandAnswer (.init uc) s (respond .ok [] (initContext uc s))
  | updateFinal (len : Nat) (s : State) (hp : s.phase = .final) (hl : len ≤ s.din.length) :
      CommandAnswer (.update len) s (refusedState .phase (afterPayload len s))
  | updateOverflow (len : Nat) (s : State) (hp : s.phase = .opened) (hl : len ≤ s.din.length)
      (hc : 2 ^ 61 ≤ s.count.toNat + len) :
      CommandAnswer (.update len) s (refusedState .overflow (afterPayload len s))
  | update (len : Nat) (s : State) (hp : s.phase = .opened) (hl : len ≤ s.din.length)
      (hc : s.count.toNat + len < 2 ^ 61) :
      CommandAnswer (.update len) s (respond .ok [] (absorbAll (s.din.take len) (afterPayload len s)))
  | finishFinal (s : State) (hp : s.phase = .final) : CommandAnswer .finish s (refusedState .phase s)
  | finish (s : State) (hp : s.phase = .opened) : CommandAnswer .finish s (respond .ok [] (closeStream s))
  | rddigOpened (s : State) (hp : s.phase = .opened) : CommandAnswer .rddig s (refusedState .phase s)
  | rddig (s : State) (hp : s.phase = .final) : CommandAnswer .rddig s (respond .ok (digestBytes s.h) s)
  | rdtextOpened (s : State) (hp : s.phase = .opened) : CommandAnswer .rdtext s (refusedState .phase s)
  | rdtext (s : State) (hp : s.phase = .final) : CommandAnswer .rdtext s (respond .ok (hexText s.h s.uc) s)
  | hasht (uc : Bool) (len : Nat) (s : State) (hl : len ≤ s.din.length) :
      CommandAnswer (.hasht uc len) s
        (respond .ok (hexText (hashPayload uc (s.din.take len) (afterPayload len s)).h uc)
          (hashPayload uc (s.din.take len) (afterPayload len s)))
  | hashb (len : Nat) (s : State) (hl : len ≤ s.din.length) :
      CommandAnswer (.hashb len) s
        (respond .ok (digestBytes (hashPayload false (s.din.take len) (afterPayload len s)).h)
          (hashPayload false (s.din.take len) (afterPayload len s)))
  | rdsrIllegal (sel : Nat) (s : State) (hs : 3 < sel) : CommandAnswer (.rdsr sel) s (refusedState .illegal s)
  | rdsr (sel : Nat) (s : State) (v : BitVec 32) (hs : sel ≤ 3) (hv : statusValue sel s = some v) :
      CommandAnswer (.rdsr sel) s (respond .ok (wordBytes v) s)

/-- A select names a status value exactly when it is at most 3 (10_state.md R35). -/
theorem statusValue_cases (sel : Nat) (s : State) :
    (sel ≤ 3 ∧ ∃ v, statusValue sel s = some v) ∨ (3 < sel ∧ statusValue sel s = none) := by
  by_cases h : sel ≤ 3
  · left
    refine ⟨h, ?_⟩
    match sel, h with
    | 0, _ => exact ⟨_, rfl⟩
    | 1, _ => exact ⟨_, rfl⟩
    | 2, _ => exact ⟨_, rfl⟩
    | 3, _ => exact ⟨_, rfl⟩
  · right
    refine ⟨by omega, ?_⟩
    unfold statusValue
    rw [if_neg (by omega), if_neg (by omega), if_neg (by omega), if_neg (by omega)]

/-- What a command's next state can be, and so is, when its payload is there. -/
theorem exec_next_of_payload (i : Instr) (s : State) (h : i.payloadLen ≤ s.din.length) :
    ∃ t, exec i s = .next t ∧ CommandAnswer i s t := by
  cases i with
  | init uc => exact ⟨_, rfl, .init uc s⟩
  | update len =>
    change len ≤ s.din.length at h
    rw [exec, execUpdate, withPayload_of_le h]
    simp only [afterPayload_phase, afterPayload_count, Config.byteLimit]
    cases hp : s.phase with
    | final => exact ⟨_, rfl, .updateFinal len s hp h⟩
    | opened =>
      by_cases hc : s.count.toNat + len < 2 ^ 61
      · exact ⟨_, if_pos hc, .update len s hp h hc⟩
      · exact ⟨_, if_neg hc, .updateOverflow len s hp h (by omega)⟩
  | finish =>
    rw [exec, execFinish]
    cases hp : s.phase with
    | final => exact ⟨_, rfl, .finishFinal s hp⟩
    | opened => exact ⟨_, rfl, .finish s hp⟩
  | rddig =>
    rw [exec, execRddig]
    cases hp : s.phase with
    | final => exact ⟨_, rfl, .rddig s hp⟩
    | opened => exact ⟨_, rfl, .rddigOpened s hp⟩
  | rdtext =>
    rw [exec, execRdtext]
    cases hp : s.phase with
    | final => exact ⟨_, rfl, .rdtext s hp⟩
    | opened => exact ⟨_, rfl, .rdtextOpened s hp⟩
  | hasht uc len =>
    change len ≤ s.din.length at h
    refine ⟨_, ?_, .hasht uc len s h⟩
    rw [exec, execHasht, withPayload_of_le h, hashPayload_uc]
  | hashb len =>
    change len ≤ s.din.length at h
    refine ⟨_, ?_, .hashb len s h⟩
    rw [exec, execHashb, withPayload_of_le h]
  | rdsr sel =>
    rw [exec, execRdsr]
    rcases statusValue_cases sel s with ⟨hs, v, hv⟩ | ⟨hs, hv⟩
    · exact ⟨_, by rw [hv], .rdsr sel s v hs hv⟩
    · exact ⟨_, by rw [hv]; rfl, .rdsrIllegal sel s hs⟩

/-- A command that has a next state had its payload. -/
theorem payload_of_exec_next {i : Instr} {s t : State} (h : exec i s = .next t) : i.payloadLen ≤ s.din.length := by
  cases i with
  | update len =>
    rw [exec, execUpdate] at h
    exact (withPayload_next h).1
  | hasht uc len =>
    rw [exec, execHasht] at h
    exact (withPayload_next h).1
  | hashb len =>
    rw [exec, execHashb] at h
    exact (withPayload_next h).1
  | init uc => exact Nat.zero_le _
  | finish => exact Nat.zero_le _
  | rddig => exact Nat.zero_le _
  | rdtext => exact Nat.zero_le _
  | rdsr sel => exact Nat.zero_le _

/-- All that one command can do. -/
theorem exec_next {i : Instr} {s t : State} (h : exec i s = .next t) : CommandAnswer i s t := by
  obtain ⟨u, hu, ha⟩ := exec_next_of_payload i s (payload_of_exec_next h)
  rw [hu] at h
  exact Host.Outcome.next.inj h ▸ ha

end Sys2Proof.Machine
end

