-- ==== Sys2Proof/Laws/PerInstr.lean ====
section
/-! SUPPORT. Laws/PerInstr.lean: what holds of every command as syntax, one lemma per constructor. -/

namespace Sys2Proof.Laws

/-- The word an encoding writes stands under its command's own opcode, 1 to 8, none of the reserved ones
(30_encoding.md R73, R78). -/
def EncodedOpcode.Statement (i : Instr) : Prop :=
  1 ≤ (opField (encode i)).toNat ∧ (opField (encode i)).toNat ≤ 8 ∧
    (opcodeRows.getD ((opField (encode i)).toNat - 1) ⟨"", 0, 0⟩).mnemonic = i.mnemonic

theorem EncodedOpcode.init (uc : Bool) : EncodedOpcode.Statement (.init uc) := by
  simp [EncodedOpcode.Statement, encode, opcodeRows, Instr.mnemonic]

theorem EncodedOpcode.update (len : Nat) : EncodedOpcode.Statement (.update len) := by
  simp [EncodedOpcode.Statement, encode, opcodeRows, Instr.mnemonic]

theorem EncodedOpcode.finish : EncodedOpcode.Statement .finish := by
  simp [EncodedOpcode.Statement, encode, opcodeRows, Instr.mnemonic]

theorem EncodedOpcode.rddig : EncodedOpcode.Statement .rddig := by
  simp [EncodedOpcode.Statement, encode, opcodeRows, Instr.mnemonic]

theorem EncodedOpcode.rdtext : EncodedOpcode.Statement .rdtext := by
  simp [EncodedOpcode.Statement, encode, opcodeRows, Instr.mnemonic]

theorem EncodedOpcode.hasht (uc : Bool) (len : Nat) : EncodedOpcode.Statement (.hasht uc len) := by
  simp [EncodedOpcode.Statement, encode, opcodeRows, Instr.mnemonic]

theorem EncodedOpcode.hashb (len : Nat) : EncodedOpcode.Statement (.hashb len) := by
  simp [EncodedOpcode.Statement, encode, opcodeRows, Instr.mnemonic]

theorem EncodedOpcode.rdsr (sel : Nat) : EncodedOpcode.Statement (.rdsr sel) := by
  simp [EncodedOpcode.Statement, encode, opcodeRows, Instr.mnemonic]

end Sys2Proof.Laws
end

