-- ==== Sys2Proof/Tests/Slice0.lean ====
section
/-! SUPPORT. Tests/Slice0.lean: tests, each expected value from 95_test_vectors.md (section in the comment), and for
each obligation with hypotheses a concrete state that meets them. -/

namespace Sys2Proof.Tests

open Sys2Proof Sys2Proof.Machine

/-! ## WellFormed -/

theorem test_update_length_too_long_refused : (Instr.update (2 ^ 24)).wellFormed = false := by decide
theorem test_hasht_length_too_long_refused : (Instr.hasht true (2 ^ 24)).wellFormed = false := by decide
theorem test_hashb_length_too_long_refused : (Instr.hashb (2 ^ 24)).wellFormed = false := by decide
theorem test_rdsr_select_four_refused : (Instr.rdsr 4).wellFormed = false := by decide
theorem test_longest_lengths_accepted :
    (Instr.update (2 ^ 24 - 1)).wellFormed ∧ (Instr.hasht false (2 ^ 24 - 1)).wellFormed ∧
      (Instr.hashb (2 ^ 24 - 1)).wellFormed ∧ (Instr.rdsr 3).wellFormed := by decide

/-! ## Decode: words written out from the opcode map of 30_encoding.md R73 as OP, FLG, ARG (values of section 2.9) -/

theorem test_decode_init : decode 0b0001_0001_000000000000000000000000 = .ok (.init true) := by decide
theorem test_decode_init_ignores_reserved_flags : decode 0b0001_1110_000000000000000000000000 = .ok (.init false) := by decide
theorem test_decode_update : decode 0b0010_0000_000000000000000000000011 = .ok (.update 3) := by decide
theorem test_decode_update_longest : decode 0b0010_0000_111111111111111111111111 = .ok (.update 16777215) := by decide
theorem test_decode_finish : decode 0b0011_0000_000000000000000000000000 = .ok .finish := by decide
theorem test_decode_rddig : decode 0b0100_0000_000000000000000000000000 = .ok .rddig := by decide
theorem test_decode_rdtext : decode 0b0101_0000_000000000000000000000000 = .ok .rdtext := by decide
theorem test_decode_hasht : decode 0b0110_0001_000000000000000000000011 = .ok (.hasht true 3) := by decide
theorem test_decode_hasht_ignores_reserved_flags :
    decode 0b0110_0010_000000000000000000000011 = .ok (.hasht false 3) := by decide
theorem test_decode_hashb : decode 0b0111_0000_000000000000000000000011 = .ok (.hashb 3) := by decide
theorem test_decode_rdsr : decode 0b1000_0000_000000000000000000000011 = .ok (.rdsr 3) := by decide
theorem test_decode_bytes_most_significant_first : decodeBytes [0x61, 0x00, 0x00, 0x03] = .ok (.hasht true 3) := by decide
theorem test_encode_hasht : encode (.hasht true 3) = 0x61000003 := by decide
theorem test_decode_table_word : decodeTableWord 32 0x80000002 = some (.rdsr 2) := by decide

theorem test_reject_reserved_opcodes :
    decode 0x00000000 = .error .reservedOpcode ∧ decode 0x90000000 = .error .reservedOpcode ∧
      decode 0xC0000000 = .error .reservedOpcode ∧ decode 0xFFFFFFFF = .error .reservedOpcode := by
  refine ⟨?_, ?_, ?_, ?_⟩ <;> decide
theorem test_reject_flags :
    decode 0x21000002 = .error .flagsNotZero ∧ decode 0x31000000 = .error .flagsNotZero ∧
      decode 0x71000001 = .error .flagsNotZero ∧ decode 0x81000000 = .error .flagsNotZero := by
  refine ⟨?_, ?_, ?_, ?_⟩ <;> decide
theorem test_reject_arg :
    decode 0x10000001 = .error .argNotZero ∧ decode 0x30000001 = .error .argNotZero ∧
      decode 0x40000001 = .error .argNotZero := by
  refine ⟨?_, ?_, ?_⟩ <;> decide
theorem test_reject_select : decode 0x80000004 = .error .selectAboveThree := by decide
theorem test_reject_short_bytes : decodeBytes [0x30, 0x00] = .error .notOneWord := by decide
theorem test_rejected_word_owns_payload : payloadLen 0x21000002 = 2 ∧ payloadLen 0x9000FFFF = 0 := by decide

/-! ## One step each -/

/-- A small state: the context of reset but for the phase and `COUNT`, with one command and its payload offered. -/
def offer (p : Phase) (count : BitVec 64) (w : CmdWord) (payload : List Byte) : State :=
  { State.reset with phase := p, count := count, inputs := [.command w], din := payload }

/-- The state after one step, if there is one. -/
def next (s : State) : Option State :=
  match step s with
  | .next t => some t
  | .fault _ => none
  | .refused _ => none

/-- The last response of a state. -/
def answer (s : State) : Option Response := (next s).bind fun t => t.rsp.getLast?

/-- The accumulator of section 2.1, the digest of "abc". -/
def abcDigest : Accumulator := ⟨0xa9993e36, 0x4706816a, 0xba3e2571, 0x7850c26c, 0x9cd0d89d⟩

/-- The bytes of "abc". -/
def abc : List Byte := [0x61, 0x62, 0x63]

/-- The open context that holds "abc" (section 2.1). -/
def abcStaged : State := { State.reset with buf := [(0, 0x61), (1, 0x62), (2, 0x63)], count := 3 }

theorem test_reset_memory_canonical : State.reset.buf.wf = true := by decide
theorem test_reset_keeps_invariant : State.reset.Inv := by decide

-- Program P7, step 3: `INIT 15` sets `UC`; and it clears a recorded refusal (2.11).
theorem test_init : (next { offer .final 3 0x1F000000 [] with err := 2 }).map
    (fun t => (t.count, t.uc, t.phase, t.err)) = some (0, true, .opened, 0) := by decide
-- Program P1, step 1.
theorem test_update_stages : (next (offer .opened 0 0x20000003 abc)).map (fun t => (t.buf, t.count, t.din)) =
    some (abcStaged.buf, 3, []) := by decide
-- Program P5: 64 bytes of 'a' are compressed by UPDATE itself.
theorem test_update_compresses : (next (offer .opened 0 0x20000040 (List.replicate 64 0x61))).map
    (fun t => (t.h, t.blocks)) = some (⟨0xda4968eb, 0x2e377c1f, 0x884e8f52, 0x83524beb, 0xe74ebdbd⟩, 1) := by
  decide +kernel
-- Section 2.1: the digest of "abc".
theorem test_finish_abc : (next { abcStaged with inputs := [.command 0x30000000] }).map
    (fun t => (t.h, t.phase, t.blocks)) = some (abcDigest, .final, 1) := by decide +kernel
-- Section 2.6, N = 56: two blocks, the length field 448 in the last.
theorem test_finish_two_blocks :
    (next (offer .opened 56 0x30000000 [])).map (fun t => (t.blocks, t.buf)) = some (2, [(62, 0x01), (63, 0xc0)]) := by
  decide +kernel
-- Section 2.8.
theorem test_rddig : answer { offer .final 3 0x40000000 [] with h := abcDigest } = some ⟨.ok,
    [0xa9, 0x99, 0x3e, 0x36, 0x47, 0x06, 0x81, 0x6a, 0xba, 0x3e, 0x25, 0x71, 0x78, 0x50, 0xc2, 0x6c, 0x9c, 0xd0, 0xd8,
      0x9d]⟩ := by decide
-- Section 2.11, first row.
theorem test_rddig_before_finish : answer (offer .opened 0 0x40000000 []) = some ⟨.phase, []⟩ := by decide
-- Section 2.8, uppercase.
theorem test_rdtext : answer { offer .final 3 0x50000000 [] with h := abcDigest, uc := true } = some ⟨.ok,
    [0x41, 0x39, 0x39, 0x39, 0x33, 0x45, 0x33, 0x36, 0x34, 0x37, 0x30, 0x36, 0x38, 0x31, 0x36, 0x41, 0x42, 0x41, 0x33,
      0x45, 0x32, 0x35, 0x37, 0x31, 0x37, 0x38, 0x35, 0x30, 0x43, 0x32, 0x36, 0x43, 0x39, 0x43, 0x44, 0x30, 0x44, 0x38,
      0x39, 0x44]⟩ := by decide
-- Section 2.11, second row.
theorem test_rdtext_before_finish : (next (offer .opened 0 0x50000000 [])).map (fun t => t.err) = some 2 := by decide
-- Source vector S1, through HASHT of the empty message, `FLG[3:1]` ignored (program P7, step 12).
theorem test_hasht_empty : (next (offer .final 9 0x62000000 [])).map
    (fun t => (t.h, t.uc, t.count, t.rsp.map fun r => r.data.length)) =
    some (⟨0xda39a3ee, 0x5e6b4b0d, 0x3255bfef, 0x95601890, 0xafd80709⟩, false, 0, [40]) := by decide +kernel
-- Source vector S2, through HASHB; the bytes beyond its payload stay on `DIN`.
theorem test_hashb_abc : (next (offer .final 9 0x70000003 (abc ++ [0x7A]))).map
    (fun t => (t.h, t.phase, t.din)) = some (abcDigest, .final, [0x7A]) := by decide +kernel
-- Section 2.10: `PHASE = FINAL`, `UC = 1`, `ERR = 2`.
theorem test_rdsr_status : answer { offer .final 3 0x80000000 [] with uc := true, err := 2 } =
    some ⟨.ok, [0x00, 0x00, 0x00, 0x23]⟩ := by decide
-- Section 2.10: `COUNT = 2^61 - 1`.
theorem test_rdsr_count_high : answer (offer .opened 0x1FFFFFFFFFFFFFFF 0x80000003 []) =
    some ⟨.ok, [0x1F, 0xFF, 0xFF, 0xFF]⟩ := by decide
-- Section 2.11: `FLG` outranks `PHASE`, the payload is taken.
theorem test_illegal_outranks_phase : (next (offer .final 0 0x21000001 [0x78])).map
    (fun t => (t.err, t.din, t.phase)) = some (1, [], .final) := by decide
-- Section 2.11: `OVERFLOW` at the limit, and `PHASE` before it.
theorem test_overflow : answer (offer .opened 0x1FFFFFFFFFFFFFFF 0x20000001 [0x77]) = some ⟨.overflow, []⟩ ∧
    answer (offer .final 0x1FFFFFFFFFFFFFFF 0x20000001 [0x77]) = some ⟨.phase, []⟩ := by decide
-- 20_memory.md R68: a payload that is not all there.
theorem test_starved : step (offer .opened 0 0x20000003 [0x61]) = .fault .payloadStarved := by rfl
-- The word of a table row runs as the first instruction after reset (log 4).
theorem test_withFetchWord : step (State.reset.withFetchWord 32 0x11000000) = exec (.init true) State.reset := by rfl

/-! ## Section 2.3: the primitives -/

theorem test_rotl : rotl 0x80000001 1 = 0x00000003 ∧ rotl 0x12345678 5 = 0x468acf02 ∧
    rotl 0x12345678 30 = 0x048d159e := by decide
theorem test_round_functions : ch 0xf0f0f0f0 0xcccccccc 0xaaaaaaaa = 0xcacacaca ∧
    parity 0xf0f0f0f0 0xcccccccc 0xaaaaaaaa = 0x96969696 ∧ maj 0xf0f0f0f0 0xcccccccc 0xaaaaaaaa = 0xe8e8e8e8 := by
  decide
-- Section 2.1: the working variables after round 0, and the last word of the schedule.
theorem test_round_zero : roundStep 0 (loadVars Accumulator.initial) 0x61626380 =
    ⟨0x0116fc33, 0x67452301, 0x7bf36ae2, 0x98badcfe, 0x10325476⟩ := by decide
theorem test_schedule : (schedule (abc ++ [0x80] ++ List.replicate 59 0 ++ [0x18])).getD 79 0 = 0x822e0879 := by
  decide +kernel

/-! ## Witnesses: for each obligation with hypotheses, a state and operands that meet them -/

/-- A message of one whole block, held: fill level 0 with `BUF` stale. -/
def blockHeld : State := absorbAll (List.replicate 64 0x61) State.reset

theorem witness_DecodeOfEncodeIsTheCommand :
    (Instr.hasht true (2 ^ 24 - 1)).wellFormed = true ∧ (Instr.rdsr 3).wellFormed = true := by decide
theorem witness_EncodeOfDecodeIsTheWord :
    decode 0x6FFFFFFF = .ok (.hasht true 16777215) ∧ opField 0x6FFFFFFF = 6 ∧
      decode 0x80000003 = .ok (.rdsr 3) ∧ opField 0x80000003 = 8 := by decide
theorem witness_DecodeFollowsTheOpcodeMap_rows :
    (opcodeRows.getD 7 ⟨"", 0, 0⟩).selects 0x80000003 = true ∧ decode 0x80000003 = .ok (.rdsr 3) := by decide
theorem witness_DecodeFollowsTheOpcodeMap_no_row :
    (offer .final 0 0x80000004 []).inputs = [.command 0x80000004] ∧ (∀ r ∈ opcodeRows, r.selects 0x80000004 = false) ∧
      payloadLen 0x80000004 ≤ (offer .final 0 0x80000004 []).din.length := by decide
theorem witness_EveryCommandTakesItsPayloadLength_fields :
    (opField 0x20000002 = 2 ∧ opField 0x60000000 = 6 ∧ opField 0x7FFFFFFF = 7) ∧
      ¬(opField 0x80000003 = 2 ∨ opField 0x80000003 = 6 ∨ opField 0x80000003 = 7) := by decide
theorem witness_EveryCommandTakesItsPayloadLength_step :
    payloadLen 0x20000003 ≤ (offer .final 0 0x20000003 abc).din.length ∧
      (next (offer .final 0 0x20000003 abc)).isSome = true := by decide
theorem witness_ReservedOpcodesAreRefused :
    (offer .opened 0 0x0000FFFF []).inputs = [.command 0x0000FFFF] ∧ opField 0x0000FFFF = 0 ∧
      9 ≤ (opField 0x9000FFFF).toNat ∧ 9 ≤ (opField 0xFFFFFFFF).toNat := by decide

/-- A word of opcode `op` with bad `FLG` or `ARG`, offered with its payload, as `IllegalWhen` asks. -/
abbrev badWord (op : BitVec 4) (bad : BitVec 4 → BitVec 24 → Prop) (w : CmdWord) (payload : List Byte) : Prop :=
  (offer .final 0 w payload).inputs = [.command w] ∧ opField w = op ∧ bad (flgField w) (argField w) ∧
    payloadLen w ≤ (offer .final 0 w payload).din.length

theorem witness_IllegalWhen_init : badWord 1 (fun _ arg => arg ≠ 0) 0x10000001 [] := by
  refine ⟨rfl, ?_, ?_, ?_⟩ <;> decide
theorem witness_IllegalWhen_update : badWord 2 (fun flg _ => flg ≠ 0) 0x21000002 [0x7A, 0x7A] := by
  refine ⟨rfl, ?_, ?_, ?_⟩ <;> decide
theorem witness_IllegalWhen_finish_flags : badWord 3 (fun flg arg => flg ≠ 0 ∨ arg ≠ 0) 0x31000000 [] := by
  refine ⟨rfl, ?_, ?_, ?_⟩ <;> decide
theorem witness_IllegalWhen_finish_arg : badWord 3 (fun flg arg => flg ≠ 0 ∨ arg ≠ 0) 0x30000001 [] := by
  refine ⟨rfl, ?_, ?_, ?_⟩ <;> decide
theorem witness_IllegalWhen_rddig : badWord 4 (fun flg arg => flg ≠ 0 ∨ arg ≠ 0) 0x40000001 [] := by
  refine ⟨rfl, ?_, ?_, ?_⟩ <;> decide
theorem witness_IllegalWhen_rdtext : badWord 5 (fun flg arg => flg ≠ 0 ∨ arg ≠ 0) 0x55000000 [] := by
  refine ⟨rfl, ?_, ?_, ?_⟩ <;> decide
theorem witness_IllegalWhen_hashb : badWord 7 (fun flg _ => flg ≠ 0) 0x71000001 [0x71] := by
  refine ⟨rfl, ?_, ?_, ?_⟩ <;> decide
theorem witness_IllegalWhen_rdsr_select : badWord 8 (fun flg arg => flg ≠ 0 ∨ 3 < arg.toNat) 0x80000004 [] := by
  refine ⟨rfl, ?_, ?_, ?_⟩ <;> decide
theorem witness_IllegalWhen_rdsr_flags : badWord 8 (fun flg arg => flg ≠ 0 ∨ 3 < arg.toNat) 0x81000000 [] := by
  refine ⟨rfl, ?_, ?_, ?_⟩ <;> decide
theorem witness_MustBeZeroFieldsAreChecked_ignored_flags :
    (opField 0x1E000000 = 1 ∧ (0x1E000000 : CmdWord) &&& 0xF1FFFFFF = 0x10000000 &&& 0xF1FFFFFF) ∧
      opField 0x6F000003 = 6 ∧ (0x6F000003 : CmdWord) &&& 0xF1FFFFFF = 0x61000003 &&& 0xF1FFFFFF := by decide

theorem witness_StepRunsTheDecodedCommand :
    (offer .opened 0 0x20000003 abc).inputs = [.command 0x20000003] ∧ decode 0x20000003 = .ok (.update 3) ∧
      decodeTableWord 32 0x20000003 = some (.update 3) := by decide
theorem witness_ResetGivesInitStateZero :
    ({ State.reset with phase := .final, inputs := [.reset] } : State).inputs = .reset :: [] := by decide
theorem witness_IdleStepHoldsTheState : abcStaged.inputs = [] := by decide
theorem witness_OneResponseOfFixedLength :
    ∃ t, exec (.rdsr 0) State.reset = .next t ∧ step (offer .opened 0 0x80000000 []) = .next t := ⟨_, rfl, rfl⟩
theorem witness_LengthFieldIsBigEndian :
    (offer .opened 0x1FFFFFFFFFFFFFFF 0 []).buf.wf = true ∧ (offer .opened 0x1FFFFFFFFFFFFFFF 0 []).phase = .opened ∧
      (offer .opened 0x1FFFFFFFFFFFFFFF 0 []).count.toNat < 2 ^ 61 := by decide
theorem witness_block_of_64_bytes : (List.replicate 64 (0xFF : Byte)).length = 64 := by decide
theorem witness_RotlMovesEveryBit : (0 < 1 ∧ 1 < 32) ∧ (0 < 31 ∧ 31 < 32) := by decide

theorem witness_InitCommand : (0x1E000000 : CmdWord) &&& 0xF0FFFFFF = 0x10000000 := by decide
/-- At the limit: `2^61 - 1` bytes after the payload. -/
theorem witness_UpdateCommand_limit :
    (offer .opened 0x1FFFFFFFFFFFFFFE 0 [0x78]).buf.wf = true ∧ (offer .opened 0x1FFFFFFFFFFFFFFE 0 [0x78]).phase = .opened ∧
      1 ≤ (offer .opened 0x1FFFFFFFFFFFFFFE 0 [0x78]).din.length ∧
      (offer .opened 0x1FFFFFFFFFFFFFFE 0 [0x78]).count.toNat + 1 < 2 ^ 61 := by decide
/-- Inside a block (`len` 3 at fill level 60) and at its end (`len` 4). -/
theorem witness_UpdateCommand_block :
    (offer .opened 60 0 [0, 0, 0, 0]).count.toNat % 64 + 3 < 64 ∧ ¬(offer .opened 60 0 [0, 0, 0, 0]).count.toNat % 64 + 4 < 64 ∧
      4 ≤ (offer .opened 60 0 [0, 0, 0, 0]).din.length ∧ (offer .opened 60 0 [0, 0, 0, 0]).buf.wf = true := by decide
theorem witness_UpdateCommand_phase : (offer .final 0 0 []).phase = .final ∧ 0 ≤ (offer .final 0 0 []).din.length := by decide
theorem witness_UpdateCommand_overflow :
    (offer .opened 0x1FFFFFFFFFFFFFFF 0 [0x77]).phase = .opened ∧ 1 ≤ (offer .opened 0x1FFFFFFFFFFFFFFF 0 [0x77]).din.length ∧
      2 ^ 61 ≤ (offer .opened 0x1FFFFFFFFFFFFFFF 0 [0x77]).count.toNat + 1 := by decide
theorem witness_UpdateCommand_word : (0x20FFFFFF : CmdWord) &&& 0xFF000000 = 0x20000000 := by decide
theorem witness_AbsorbOneByte_fills : (offer .opened 63 0 []).buf.wf = true ∧
    ((offer .opened 63 0 []).count + 1#64).toNat % 64 = 0 := by decide
theorem witness_AbsorbOneByte_stages : (offer .opened 62 0 []).buf.wf = true ∧
    ((offer .opened 62 0 []).count + 1#64).toNat % 64 ≠ 0 := by decide
theorem witness_HoldsMessage_abc : HoldsMessage abc abcStaged := by
  unfold HoldsMessage
  decide +kernel
theorem witness_HoldsMessage_block : HoldsMessage (List.replicate 64 0x61) blockHeld := by
  unfold HoldsMessage
  decide +kernel
theorem witness_HoldsMessage_with_payload : HoldsMessage abc { abcStaged with din := abc } ∧
    3 ≤ ({ abcStaged with din := abc } : State).din.length ∧ abc.length + 3 < 2 ^ 61 := by
  unfold HoldsMessage
  decide +kernel
theorem witness_FillInvariant_step : HoldsMessage abc { abcStaged with inputs := [.command 0x80000000] } ∧
    ∃ t, step { abcStaged with inputs := [.command 0x80000000] } = .next t ∧ t.phase = .opened := by
  refine ⟨?_, ⟨_, rfl, rfl⟩⟩
  unfold HoldsMessage
  decide +kernel
theorem witness_StreamingProperty : (offer .opened 60 0 abc).phase = .opened ∧ 2 + 1 ≤ (offer .opened 60 0 abc).din.length ∧
    (offer .opened 60 0 abc).count.toNat + (2 + 1) < 2 ^ 61 := by decide
theorem witness_BlockwiseUpdateAgrees : (offer .opened 60 0 []).count.toNat + (List.replicate 69 (0 : Byte)).length < 2 ^ 64 := by
  decide
theorem witness_FinishCommand_one_block : (offer .opened 55 0 []).buf.wf = true ∧ (offer .opened 55 0 []).phase = .opened ∧
    (offer .opened 55 0 []).count.toNat % 64 ≤ 55 := by decide
theorem witness_FinishCommand_two_blocks : (offer .opened 56 0 []).buf.wf = true ∧ (offer .opened 56 0 []).phase = .opened ∧
    56 ≤ (offer .opened 56 0 []).count.toNat % 64 := by decide
theorem witness_phase_final : (offer .final 3 0 []).phase = .final := by decide
theorem witness_phase_opened : (offer .opened 3 0 []).phase = .opened := by decide
theorem witness_FragmentsHashToTheDigest :
    let fragments : List (List Byte) := [[0x61], [], [0x62, 0x63]]
    let s : State := { offer .final 9 0 abc with inputs := messageInputs true fragments }
    (∀ p ∈ fragments, p.length < 2 ^ 24) ∧ fragments.flatten.length < 2 ^ 61 ∧ s.inputs = messageInputs true fragments ∧
      s.din = fragments.flatten := by decide

theorem witness_RdsrCommand : (3 ≤ 3 ∧ 3 < 4) ∧ (0x80000003 : CmdWord) &&& 0xFFFFFFFC = 0x80000000 := by decide
theorem witness_StatusValuesLayout : (offer .opened 0x1FFFFFFFFFFFFFFF 0 []).count.toNat < 2 ^ 61 := by decide
theorem witness_StatusValuesLayout_read : statusValue 3 (offer .opened 0x1FFFFFFFFFFFFFFF 0 []) = some 0x1FFFFFFF := by decide
theorem witness_StatusValuesLayout_count : (∃ t, exec .finish abcStaged = .next t) ∧ (∀ uc, Instr.finish ≠ .init uc) ∧
    (∀ len, Instr.finish ≠ .update len) ∧ (∀ uc len, Instr.finish ≠ .hasht uc len) ∧
    ∀ len, Instr.finish ≠ .hashb len := by
  refine ⟨⟨_, rfl⟩, ?_, ?_, ?_, ?_⟩ <;> intros <;> simp
theorem witness_ReadsAreIdempotent : ∃ t, exec (.rdsr 0) State.reset = .next t ∧
    t.rsp = State.reset.rsp ++ [⟨.ok, [0, 0, 0, 0]⟩] := ⟨_, rfl, rfl⟩
theorem witness_HashCommands : 3 < 2 ^ 24 ∧ 3 ≤ (offer .final 9 0 abc).din.length ∧
    (0x6F000003 : CmdWord) &&& 0xF0000000 = 0x60000000 ∧ (0x70000003 : CmdWord) &&& 0xFF000000 = 0x70000000 := by decide
theorem witness_HashCommands_empty : 0 < 2 ^ 24 ∧ 0 ≤ (offer .final 9 0 []).din.length := by decide
theorem witness_OneShotIgnoresTheState : 3 ≤ (offer .final 9 0 abc).din.length ∧
    (offer .final 9 0 abc).din.take 3 = (offer .opened 1 0 (abc ++ [0x7A])).din.take 3 := by decide

theorem witness_PhaseTable : (Instr.update 3).payloadLen ≤ (offer .final 0 0 abc).din.length := by decide
theorem witness_OverflowRefusal_zero_length : (offer .opened 0x1FFFFFFFFFFFFFFF 0 []).phase = .opened ∧
    (offer .opened 0x1FFFFFFFFFFFFFFF 0 []).count = 0x1FFFFFFFFFFFFFFF := by decide
theorem witness_RefusalPriority_illegal :
    (offer .final 0 0x21000001 [0x78]).inputs = [.command 0x21000001] ∧ decode 0x21000001 = .error .flagsNotZero ∧
      payloadLen 0x21000001 ≤ (offer .final 0 0x21000001 [0x78]).din.length := by decide
theorem witness_RefusalPriority_phase :
    let s := offer .final 0x1FFFFFFFFFFFFFFF 0x20000001 [0x77]
    s.inputs = [.command 0x20000001] ∧ decode 0x20000001 = .ok (.update 1) ∧ 1 ≤ s.din.length ∧ s.phase = .final := by decide
theorem witness_RefusalPriority_overflow :
    let s := offer .opened 0x1FFFFFFFFFFFFFFF 0x20000001 [0x77]
    s.inputs = [.command 0x20000001] ∧ decode 0x20000001 = .ok (.update 1) ∧ 1 ≤ s.din.length ∧ s.phase = .opened ∧
      2 ^ 61 ≤ s.count.toNat + 1 := by decide
theorem witness_RefusalsArePrecise : (offer .opened 0 0x40000000 []).inputs = [.command 0x40000000] ∧
    (∃ t, step (offer .opened 0 0x40000000 []) = .next t) ∧ answer (offer .opened 0 0x40000000 []) = some ⟨.phase, []⟩ :=
  ⟨rfl, ⟨_, rfl⟩, by decide⟩
theorem witness_exec_next_ok : ∃ t, exec (.update 3) (offer .opened 0 0 abc) = .next t := ⟨_, rfl⟩
theorem witness_exec_next_refused : ∃ t, exec .rdtext State.reset = .next t := ⟨_, rfl⟩
theorem witness_RefusalIgnoresThePayload :
    let s := offer .final 3 0 abc
    let s' : State := { offer .final 3 0 [0, 0, 0] with h := abcDigest, err := 2 }
    s'.phase = s.phase ∧ s'.count = s.count ∧ s'.din.length = s.din.length ∧ (∃ t, exec (.update 3) s = .next t) :=
  ⟨rfl, rfl, rfl, ⟨_, rfl⟩⟩

theorem witness_StepKeepsInv_opened : ({ abcStaged with inputs := [.command 0x30000000] } : State).Inv ∧
    ∃ t, step { abcStaged with inputs := [.command 0x30000000] } = .next t := ⟨by decide, ⟨_, rfl⟩⟩
theorem witness_StepKeepsInv_final : ({ offer .final 56 0x50000000 [] with blocks := 2, err := 3 } : State).Inv ∧
    ∃ t, step { offer .final 56 0x50000000 [] with blocks := 2, err := 3 } = .next t := ⟨by decide, ⟨_, rfl⟩⟩
theorem witness_PhaseTransitions_left_by_init : (offer .final 3 0x10000000 []).phase = .final ∧
    ∃ t, step (offer .final 3 0x10000000 []) = .next t ∧ t.phase = .opened := ⟨rfl, ⟨_, rfl, rfl⟩⟩
theorem witness_DigestIsImmutable :
    (offer .final 3 0x30000000 []).phase = .final ∧ (∃ t, step (offer .final 3 0x30000000 []) = .next t) ∧
      decode 0x30000000 = .ok .finish := ⟨rfl, ⟨_, rfl⟩, by decide⟩
theorem witness_DigestIsImmutable_no_reset : ∀ rest, (offer .final 3 0x30000000 []).inputs ≠ .reset :: rest := by
  intro rest h
  cases h
theorem witness_DigestIsImmutable_no_overwrite :
    ∀ w rest, (offer .final 3 0x30000000 []).inputs = .command w :: rest →
      (∀ uc, decode w ≠ .ok (.init uc)) ∧ (∀ uc len, decode w ≠ .ok (.hasht uc len)) ∧
        ∀ len, decode w ≠ .ok (.hashb len) := by
  intro w rest h
  cases h
  have hd : decode 0x30000000 = .ok .finish := by decide
  refine ⟨fun uc h => ?_, fun uc len h => ?_, fun len h => ?_⟩ <;>
  · rw [hd] at h
    cases h
/-- The stale bytes differ: index 3 holds the end of another message. -/
theorem witness_StaleBytesAreUnobservable :
    let s : State := { abcStaged with inputs := [.command 0x30000000] }
    let s' : State := { s with buf := s.buf ++ [(3, 0x7A)] }
    SameUpToStale s s' ∧ ∃ t, step s = .next t := ⟨by decide, ⟨_, rfl⟩⟩

end Sys2Proof.Tests
end

section
/-! SUPPORT. One step of the engine, said once for each of its branches, and all that a step can do (`step_next`). -/

namespace Sys2Proof.Machine

/-! ## The branches of one step -/

@[simp] theorem afterPayload_zero (s : State) : afterPayload 0 s = s := rfl

/-- Taking the first input off `CMD` leaves the rest of them. -/
theorem dropInput_of_inputs_cons {s : State} {x : HostInput} {rest : List HostInput} (h : s.inputs = x :: rest) :
    dropInput s = { s with inputs := rest } := by
  rw [dropInput, h, List.tail_cons]

theorem step_of_inputs_nil {s : State} (h : s.inputs = []) : step s = .next s := by
  rw [step, h]

theorem step_of_reset {s : State} {rest : List HostInput} (h : s.inputs = .reset :: rest) :
    step s = .next (resetContext { s with inputs := rest }) := by
  rw [← dropInput_of_inputs_cons h, step, h]

theorem step_of_command {s : State} {w : CmdWord} {rest : List HostInput} (h : s.inputs = .command w :: rest) :
    step s = runWord w { s with inputs := rest } := by
  rw [← dropInput_of_inputs_cons h, step, h]

theorem runWord_of_decode_ok {w : CmdWord} {i : Instr} (h : decode w = .ok i) (s : State) : runWord w s = exec i s := by
  rw [runWord, h]

theorem runWord_of_decode_error {w : CmdWord} {e : DecodeReject} (h : decode w = .error e) (s : State) :
    runWord w s = refuseIllegalWord w s := by
  rw [runWord, h]

/-- A word that selects no row, its payload there, is refused with `ILLEGAL` (60_exceptions.md R171). -/
theorem refuseIllegalWord_of_le {w : CmdWord} {s : State} (h : payloadLen w ≤ s.din.length) :
    refuseIllegalWord w s = .next (refusedState .illegal (afterPayload (payloadLen w) s)) := by
  rw [refuseIllegalWord, withPayload_of_le h, refuse, refusedState]

/-! ## All that one step can do -/

/-- What one step's next state can be. -/
inductive StepAnswer (s : State) : State → Prop where
  | idle (hin : s.inputs = []) : StepAnswer s s
  | reset (rest : List HostInput) (hin : s.inputs = .reset :: rest) :
      StepAnswer s (resetContext { s with inputs := rest })
  | command (w : CmdWord) (rest : List HostInput) (i : Instr) (t : State) (hin : s.inputs = .command w :: rest)
      (hd : decode w = .ok i) (ha : CommandAnswer i { s with inputs := rest } t) : StepAnswer s t
  | illegalWord (w : CmdWord) (rest : List HostInput) (e : DecodeReject) (hin : s.inputs = .command w :: rest)
      (hd : decode w = .error e) (hl : payloadLen w ≤ s.din.length) :
      StepAnswer s (refusedState .illegal (afterPayload (payloadLen w) { s with inputs := rest }))

/-- All that one step can do. -/
theorem step_next {s t : State} (h : step s = .next t) : StepAnswer s t := by
  match hin : s.inputs with
  | [] =>
    rw [step_of_inputs_nil hin] at h
    exact Host.Outcome.next.inj h ▸ .idle hin
  | .reset :: rest =>
    rw [step_of_reset hin] at h
    exact Host.Outcome.next.inj h ▸ .reset rest hin
  | .command w :: rest =>
    rw [step_of_command hin] at h
    cases hd : decode w with
    | ok i =>
      rw [runWord_of_decode_ok hd] at h
      exact .command w rest i t hin hd (exec_next h)
    | error e =>
      rw [runWord_of_decode_error hd] at h
      obtain ⟨hl, -⟩ := withPayload_next h
      rw [refuseIllegalWord_of_le (s := { s with inputs := rest }) hl] at h
      exact Host.Outcome.next.inj h ▸ .illegalWord w rest e hin hd hl

/-! ## Refusals -/

theorem refusedState_sameButErr (c : Code) (s : State) : SameButErr s (refusedState c s) := by
  simp [SameButErr, refusedState]

/-- The refused state, the `n` payload bytes taken, is the whole effect of a refusal (60_exceptions.md R175). -/
theorem refused_refusedState (n : Nat) (c : Code) (s : State) : Refused n c s (refusedState c (afterPayload n s)) := by
  refine ⟨refusedState_sameButErr c (afterPayload n s), recordError_err c (afterPayload n s), ?_⟩
  simp [Answered, refusedState]

/-- When every word of an opcode with the bad fields is rejected by `Decode`, each is refused with `ILLEGAL`. -/
theorem illegalWhen_of_decode {op : BitVec 4} {bad : BitVec 4 → BitVec 24 → Prop}
    (h : ∀ w, opField w = op → bad (flgField w) (argField w) → ∃ e, decode w = .error e) : IllegalWhen op bad := by
  intro s w rest hin hop hbad hl
  obtain ⟨e, hd⟩ := h w hop hbad
  refine ⟨_, ?_, refused_refusedState (payloadLen w) .illegal { s with inputs := rest }⟩
  rw [step_of_command hin, runWord_of_decode_error hd]
  exact refuseIllegalWord_of_le hl

/-! ## What a command leaves in `PHASE` and `COUNT` -/

/-- The phase each command leaves, from the phase it finds (10_state.md R26). -/
def phaseAfter : Instr → Phase → Phase
  | .init _, _ => .opened
  | .finish, _ => .final
  | .hasht _ _, _ => .final
  | .hashb _, _ => .final
  | .update _, p => p
  | .rddig, p => p
  | .rdtext, p => p
  | .rdsr _, p => p

theorem CommandAnswer.phase_eq {i : Instr} {s t : State} (h : CommandAnswer i s t) : t.phase = phaseAfter i s.phase := by
  cases h with
  | finishFinal _ hp => simp [refusedState, phaseAfter, hp]
  | _ => simp [refusedState, phaseAfter]

/-- Of the commands, INIT alone leaves `FINAL` for `OPEN` (10_state.md R26). -/
theorem phaseAfter_final_eq_opened {i : Instr} : phaseAfter i .final = .opened ↔ ∃ uc, i = .init uc := by
  cases i <;> simp [phaseAfter]

/-- The commands that do not absorb or start a message leave `COUNT` (10_state.md R23). -/
theorem CommandAnswer.count_eq {i : Instr} {s t : State} (h : CommandAnswer i s t) (hinit : ∀ uc, i ≠ .init uc)
    (hupdate : ∀ len, i ≠ .update len) (hhasht : ∀ uc len, i ≠ .hasht uc len) (hhashb : ∀ len, i ≠ .hashb len) :
    t.count = s.count := by
  cases h with
  | init uc => exact absurd rfl (hinit uc)
  | updateFinal len | updateOverflow len | update len => exact absurd rfl (hupdate len)
  | hasht uc len => exact absurd rfl (hhasht uc len)
  | hashb len => exact absurd rfl (hhashb len)
  | _ => simp [refusedState]

end Sys2Proof.Machine
end

section
/-! SUPPORT. The status values of 10_state.md R35, bit by bit. -/

namespace Sys2Proof.Machine

/-- Bit by bit, `STATUS` (10_state.md R35). -/
theorem getLsbD_statusWord (s : State) (i : Nat) :
    (statusWord s).getLsbD i =
      if i < 1 then s.phase.bit.getLsbD i
      else if i < 2 then s.uc
      else if i < 4 then false
      else if i < 8 then s.err.getLsbD (i - 4)
      else false := by
  have h : (statusWord s).getLsbD i =
      (0#24 ++ s.err ++ 0#2 ++ BitVec.ofBool s.uc ++ s.phase.bit : BitVec (24 + 4 + 2 + 1 + 1)).getLsbD i := rfl
  simp only [h, BitVec.getLsbD_append, BitVec.getLsbD_ofBool, BitVec.getLsbD_zero]
  by_cases h1 : i < 1
  · rw [if_pos h1, if_pos h1]
  rw [if_neg h1, if_neg h1]
  by_cases h2 : i < 2
  · rw [if_pos (by omega), if_pos h2]
    simp [show i - 1 = 0 by omega]
  rw [if_neg (by omega), if_neg h2]
  by_cases h4 : i < 4
  · rw [if_pos (by omega), if_pos h4]
  rw [if_neg (by omega), if_neg h4]
  by_cases h8 : i < 8
  · rw [if_pos (by omega), if_pos h8, show i - 1 - 1 - 2 = i - 4 by omega]
  · rw [if_neg (by omega), if_neg h8]

theorem Phase.getLsbD_bit_zero (p : Phase) : p.bit.getLsbD 0 = decide (p = .final) := by
  cases p <;> rfl

/-- Bits 3:2 and 31:8 of `STATUS` are 0, bits 7:4 are `ERR` (10_state.md R35). -/
theorem statusWord_fields (s : State) :
    (statusWord s).extractLsb' 2 2 = 0 ∧ (statusWord s).extractLsb' 4 4 = s.err ∧
      (statusWord s).extractLsb' 8 24 = 0 := by
  refine ⟨?_, ?_, ?_⟩ <;> apply BitVec.eq_of_getLsbD_eq <;> intro i hi <;>
    rw [BitVec.getLsbD_extractLsb', getLsbD_statusWord]
  · rw [if_neg (by omega), if_neg (by omega), if_pos (by omega)]
    simp
  · rw [if_neg (by omega), if_neg (by omega), if_neg (by omega), if_pos (by omega), Nat.add_sub_cancel_left]
    simp [hi]
  · rw [if_neg (by omega), if_neg (by omega), if_neg (by omega), if_neg (by omega)]
    simp

theorem countHigh_top_eq_zero {c : BitVec 64} (h : c.toNat < 2 ^ 61) :
    (c.extractLsb' 32 32).extractLsb' 29 3 = 0 := by
  apply BitVec.eq_of_toNat_eq
  simp only [BitVec.extractLsb'_toNat, Nat.shiftRight_eq_div_pow]
  change _ = 0
  omega

/-- A select that names a value is answered with its four bytes (41_output_commands.md R124). -/
theorem exec_rdsr_of_some {sel : Nat} {s : State} {v : BitVec 32} (h : statusValue sel s = some v) :
    exec (.rdsr sel) s = .next (respond .ok (wordBytes v) s) := by
  rw [exec, execRdsr, h]

/-- A select above 3 is refused (10_state.md R35). -/
theorem exec_rdsr_of_lt {sel : Nat} (s : State) (h : 3 < sel) :
    exec (.rdsr sel) s = .next (refusedState .illegal s) := by
  obtain ⟨t, ht, ha⟩ := exec_next_of_payload (.rdsr sel) s (Nat.zero_le _)
  cases ha with
  | rdsrIllegal => exact ht
  | rdsr v hs => omega

/-- `Decode` rejects RDSR with a select above 3 (30_encoding.md R77). -/
theorem decode_rdsr_of_select_lt {w : CmdWord} (hop : opField w = 8) (h : 3 < (argField w).toNat) :
    decode w = .error .selectAboveThree := by
  simp [decode, decodeSelect, hop, Nat.not_le.2 h]

end Sys2Proof.Machine

namespace Sys2Proof.Proofs
open Sys2Proof.Machine

/-- Settles O50: each command's phase is `phaseAfter` of the one it finds, and a reset opens the stream. -/
theorem phaseTransitions : Obligations.PhaseTransitions := by
  unfold Obligations.PhaseTransitions
  refine ⟨⟨rfl, rfl, rfl, fun s rest hin => ⟨_, step_of_reset hin, rfl⟩⟩, ?_, ?_⟩
  · intro i s t h
    rw [(exec_next h).phase_eq]
    cases i <;> rfl
  · intro s t h hfinal hopen
    cases step_next h with
    | idle => rw [hfinal] at hopen; cases hopen
    | reset rest hin => exact .inl ⟨rest, hin⟩
    | command w rest i _ hin hd ha =>
      rw [ha.phase_eq, hfinal] at hopen
      obtain ⟨uc, rfl⟩ := phaseAfter_final_eq_opened.1 hopen
      exact .inr ⟨w, rest, uc, hin, hd⟩
    | illegalWord => simp [refusedState, hfinal] at hopen

/-- Settles O34: `STATUS` bit by bit, the other selects by definition, and the commands by what they leave. -/
theorem statusValuesLayout : Obligations.StatusValuesLayout := by
  unfold Obligations.StatusValuesLayout
  refine ⟨?_, fun s => countHigh_top_eq_zero, ?_, ?_, ?_, ?_⟩
  · intro s
    obtain ⟨hgap, herr, htop⟩ := statusWord_fields s
    refine ⟨rfl, ?_, ?_, hgap, herr, htop, rfl, rfl, rfl⟩
    · rw [getLsbD_statusWord, if_pos (by decide), Phase.getLsbD_bit_zero]
    · rw [getLsbD_statusWord, if_neg (by decide), if_pos (by decide)]
  · intro sel s v hv
    exact ⟨_, exec_rdsr_of_some hv, by simp [SameContext, SameButErr], by simp [Answered]⟩
  · intro sel s hsel
    exact ⟨_, exec_rdsr_of_lt s hsel, refused_refusedState 0 .illegal s⟩
  · exact illegalWhen_of_decode fun w hop harg => ⟨_, decode_rdsr_of_select_lt hop harg⟩
  · exact fun i s t h => (exec_next h).count_eq

end Sys2Proof.Proofs
end

section
/-! SUPPORT. The message an open context holds (10_state.md R28): how its blocks and its tail grow by a byte, and that
`Absorb` and the commands keep it. -/

namespace Sys2Proof.Machine

/-! ## The blocks and the tail of a message -/

/-- What remains of a message after its complete blocks: the bytes staged in `BUF` while it is open. -/
def messageTail (m : List Byte) : List Byte := m.drop (64 * (m.length / 64))

@[simp] theorem messageTail_length (m : List Byte) : (messageTail m).length = m.length % 64 := by
  rw [messageTail, List.length_drop]
  omega

theorem getD_messageTail (m : List Byte) (a : Nat) : (messageTail m).getD a 0 = m.getD (64 * (m.length / 64) + a) 0 := by
  simp only [messageTail, List.getD_eq_getElem?_getD, List.getElem?_drop]

@[simp] theorem blocksOf_nil : blocksOf [] = [] := rfl

/-- Bytes appended to a message complete the blocks that its tail and those bytes hold. -/
theorem blocksOf_append (m p : List Byte) : blocksOf (m ++ p) = blocksOf m ++ blocksOf (messageTail m ++ p) := by
  have hlen : (m ++ p).length / 64 = m.length / 64 + (messageTail m ++ p).length / 64 := by
    simp only [List.length_append, messageTail_length]
    omega
  rw [blocksOf, hlen, List.range_add, List.map_append, List.map_map]
  congr 1
  · refine List.map_congr_left fun k hk => ?_
    have hk : k < m.length / 64 := List.mem_range.1 hk
    rw [List.drop_append_of_le_length (by omega), List.take_append_of_le_length (by rw [List.length_drop]; omega)]
  · refine List.map_congr_left fun k _ => ?_
    rw [messageTail, ← List.drop_append_of_le_length (by omega), List.drop_drop, Function.comp_apply, Nat.mul_add]

theorem blocksOf_of_lt {m : List Byte} (h : m.length < 64) : blocksOf m = [] := by
  rw [blocksOf, Nat.div_eq_of_lt h, List.range_zero, List.map_nil]

theorem blocksOf_of_length_eq {m : List Byte} (h : m.length = 64) : blocksOf m = [m] := by
  simp [blocksOf, h, List.take_of_length_le]

/-- Bytes that do not fill the tail's block complete none. -/
theorem blocksOf_append_of_lt {m p : List Byte} (h : m.length % 64 + p.length < 64) : blocksOf (m ++ p) = blocksOf m := by
  rw [blocksOf_append, blocksOf_of_lt (m := messageTail m ++ p) (by simpa using h), List.append_nil]

/-- Bytes that just fill the tail's block complete that one. -/
theorem blocksOf_append_of_eq {m p : List Byte} (h : m.length % 64 + p.length = 64) :
    blocksOf (m ++ p) = blocksOf m ++ [messageTail m ++ p] := by
  rw [blocksOf_append, blocksOf_of_length_eq (m := messageTail m ++ p) (by simpa using h)]

theorem hashBlocks_append (h : Accumulator) (bs cs : List (List Byte)) :
    hashBlocks h (bs ++ cs) = hashBlocks (hashBlocks h bs) cs := List.foldl_append

/-- While the bytes appended do not complete a block, they join the tail. -/
theorem messageTail_append_of_lt {m p : List Byte} (h : m.length % 64 + p.length < 64) :
    messageTail (m ++ p) = messageTail m ++ p := by
  rw [messageTail, List.length_append, show (m.length + p.length) / 64 = m.length / 64 by omega,
    List.drop_append_of_le_length (by omega), messageTail]

/-! ## What a context that holds a message shows -/

theorem HoldsMessage.buf_wf {m : List Byte} {s : State} (h : HoldsMessage m s) : s.buf.wf = true := by
  obtain ⟨-, hwf, -⟩ := h
  exact hwf

theorem HoldsMessage.phase_opened {m : List Byte} {s : State} (h : HoldsMessage m s) : s.phase = .opened := by
  obtain ⟨-, -, hphase, -⟩ := h
  exact hphase

theorem HoldsMessage.count_toNat {m : List Byte} {s : State} (h : HoldsMessage m s) : s.count.toNat = m.length := by
  obtain ⟨hlt, -, -, hcount, -⟩ := h
  rw [hcount, BitVec.toNat_ofNat, Nat.mod_eq_of_lt (by omega)]

theorem HoldsMessage.fillLevel_eq {m : List Byte} {s : State} (h : HoldsMessage m s) : fillLevel s = m.length % 64 := by
  rw [fillLevel, h.count_toNat]

/-- The staged bytes are the message's tail. -/
theorem HoldsMessage.read_eq {m : List Byte} {s : State} (h : HoldsMessage m s) {a : Nat} (ha : a < m.length % 64) :
    s.buf.read a = (messageTail m).getD a 0 := by
  obtain ⟨-, -, -, -, -, -, hread⟩ := h
  rw [getD_messageTail, hread a ha]

/-- With the next byte staged, `BUF` shows the tail and that byte. -/
theorem HoldsMessage.read_write_eq {m : List Byte} {s : State} (h : HoldsMessage m s) (b : Byte) {a : Nat}
    (ha : a ≤ m.length % 64) : (s.buf.write (fillLevel s) b).read a = (messageTail m ++ [b]).getD a 0 := by
  rw [Memory.read_write h.buf_wf, h.fillLevel_eq]
  by_cases heq : a = m.length % 64
  · rw [if_pos heq, List.getD_append_right _ _ _ _ (by simp [heq])]
    simp [heq]
  · have hlt : a < m.length % 64 := by omega
    rw [if_neg heq, h.read_eq hlt, List.getD_append _ _ _ _ (by simpa using hlt)]

/-- The byte that fills the block makes `BUF` the tail and that byte, whole. -/
theorem HoldsMessage.bufBlock_write_eq {m : List Byte} {s : State} (h : HoldsMessage m s) (b : Byte)
    (hfull : m.length % 64 = 63) : bufBlock (s.buf.write (fillLevel s) b) = messageTail m ++ [b] := by
  refine List.ext_getElem (by simp [hfull]) fun a ha hb => ?_
  have ha : a < 64 := by simpa using ha
  rw [bufBlock_getElem, h.read_write_eq b (by omega), List.getD_eq_getElem _ _ hb]

/-! ## What starts, extends and keeps the message held -/

theorem holdsMessage_initContext (uc : Bool) (s : State) : HoldsMessage [] (initContext uc s) := by
  simp [HoldsMessage, hashBlocks]

theorem holdsMessage_resetContext (s : State) : HoldsMessage [] (resetContext s) := holdsMessage_initContext false s

/-- The message is a matter of the context, `ERR` apart. -/
theorem HoldsMessage.of_sameButErr {m : List Byte} {s t : State} (h : HoldsMessage m s) (hst : SameButErr s t) :
    HoldsMessage m t := by
  obtain ⟨hh, hbuf, hcount, hblocks, -, hphase⟩ := hst
  unfold HoldsMessage
  rw [hh, hbuf, hcount, hblocks, hphase]
  exact h

/-- `Absorb` extends the message by its byte (40_stream_commands.md R102). -/
theorem HoldsMessage.of_absorb {m : List Byte} {s : State} (h : HoldsMessage m s) (b : Byte)
    (hlt : m.length + 1 < 2 ^ 61) : HoldsMessage (m ++ [b]) (absorb s b) := by
  have hlen : (m ++ [b]).length = m.length + 1 := by simp
  have hfl := h.fillLevel_eq
  obtain ⟨-, hwf, hphase, hcount, hh, hblocks, -⟩ := id h
  refine ⟨by rwa [hlen], absorb_wf hwf b, by rwa [absorb_phase], ?_, ?_⟩
  · rw [absorb_count, hcount, hlen, BitVec.ofNat_add]
  rcases absorb_cases s b with ⟨hfill, heq⟩ | ⟨hfill, heq⟩
  · have hone : m.length % 64 + [b].length = 64 := by rw [List.length_singleton]; omega
    refine ⟨?_, ?_, fun a ha => by omega⟩
    · rw [heq, compressBuf_h, stage_h, stage_buf, h.bufBlock_write_eq b (by omega), blocksOf_append_of_eq hone,
        hashBlocks_append, ← hh]
      rfl
    · rw [heq, compressBuf_blocks, stage_blocks, hblocks, hlen, show (m.length + 1) / 64 = m.length / 64 + 1 by omega,
        BitVec.ofNat_add]
  · have hone : m.length % 64 + [b].length < 64 := by rw [List.length_singleton]; omega
    refine ⟨?_, ?_, fun a ha => ?_⟩
    · rw [heq, stage_h, hh, blocksOf_append_of_lt hone]
    · rw [heq, stage_blocks, hblocks, hlen, show (m.length + 1) / 64 = m.length / 64 by omega]
    · rw [absorb_buf, h.read_write_eq b (by omega), ← getD_messageTail, messageTail_append_of_lt hone]

/-- Absorbing a payload extends the message by it (40_stream_commands.md R101). -/
theorem HoldsMessage.of_absorbAll {m : List Byte} {s : State} (h : HoldsMessage m s) (p : List Byte)
    (hlt : m.length + p.length < 2 ^ 61) : HoldsMessage (m ++ p) (absorbAll p s) := by
  induction p generalizing m s with
  | nil => simpa using h
  | cons b p ih =>
    rw [List.length_cons] at hlt
    have hb := ih (h.of_absorb b (by omega)) (by rw [List.length_append, List.length_singleton]; omega)
    rwa [List.append_assoc] at hb

/-- A refusal keeps the message, its payload discarded (60_exceptions.md R175). -/
theorem HoldsMessage.of_refused {m : List Byte} {s : State} (h : HoldsMessage m s) (c : Code) (n : Nat) :
    HoldsMessage m (refusedState c (afterPayload n s)) :=
  h.of_sameButErr (refused_refusedState n c s).1

/-- UPDATE below the limit extends the message by its payload. -/
theorem HoldsMessage.of_update {m : List Byte} {s : State} (h : HoldsMessage m s) {len : Nat} (hl : len ≤ s.din.length)
    (hlt : m.length + len < 2 ^ 61) :
    HoldsMessage (m ++ s.din.take len) (respond .ok [] (absorbAll (s.din.take len) (afterPayload len s))) :=
  have hafter : HoldsMessage m (afterPayload len s) := h
  hafter.of_absorbAll (s.din.take len) (by rwa [List.length_take, Nat.min_eq_left hl])

/-- A command on a context that holds a message closes the stream or leaves it holding a message. -/
theorem HoldsMessage.of_commandAnswer {m : List Byte} {i : Instr} {s t : State} (h : HoldsMessage m s)
    (ha : CommandAnswer i s t) (hopen : t.phase = .opened) : ∃ m', HoldsMessage m' t := by
  have hphase := h.phase_opened
  cases ha with
  | init uc => exact ⟨[], holdsMessage_initContext uc s⟩
  | update len _ _ hl hc => exact ⟨_, h.of_update hl (by rwa [h.count_toNat] at hc)⟩
  | updateOverflow len => exact ⟨m, h.of_refused .overflow len⟩
  | rddigOpened | rdtextOpened => exact ⟨m, h.of_refused .phase 0⟩
  | rdsrIllegal => exact ⟨m, h.of_refused .illegal 0⟩
  | rdsr => exact ⟨m, h⟩
  | updateFinal _ _ hp => rw [hphase] at hp; cases hp
  | finishFinal _ hp | rddig _ hp | rdtext _ hp => rw [hphase] at hp; cases hp
  | finish | hasht | hashb => simp at hopen

end Sys2Proof.Machine

namespace Sys2Proof.Proofs
open Sys2Proof.Machine

/-- Settles O28: an open context holds a message from its start, and every command that leaves it open keeps that. -/
theorem fillInvariant : Obligations.FillInvariant := by
  unfold Obligations.FillInvariant
  refine ⟨holdsMessage_resetContext State.reset, ?_, ?_, ?_⟩
  · exact fun uc s => ⟨_, rfl, holdsMessage_initContext uc s⟩
  · intro m len s h hl hlt
    obtain ⟨t, ht, ha⟩ := exec_next_of_payload (.update len) s hl
    refine ⟨t, ht, ?_⟩
    have hphase := h.phase_opened
    have hcount := h.count_toNat
    cases ha with
    | update => exact h.of_update hl hlt
    | updateFinal _ _ hp => rw [hphase] at hp; cases hp
    | updateOverflow _ _ _ _ hc => omega
  · intro m s t h hstep hopen
    cases step_next hstep with
    | idle => exact ⟨m, h⟩
    | reset rest => exact ⟨[], holdsMessage_resetContext _⟩
    | command w rest i _ _ _ ha =>
      have hrest : HoldsMessage m { s with inputs := rest } := h
      exact hrest.of_commandAnswer ha hopen
    | illegalWord w rest =>
      have hrest : HoldsMessage m { s with inputs := rest } := h
      exact ⟨m, hrest.of_refused .illegal (payloadLen w)⟩

end Sys2Proof.Proofs
end

section
/-! SUPPORT. The response of each command (20_memory.md R67): one, after those before it, its length fixed by the
command and the code. -/

namespace Sys2Proof.Machine

/-! ## Lengths of the emitted bytes -/

@[simp] theorem wordBytes_length (v : BitVec 32) : (wordBytes v).length = 4 := rfl

@[simp] theorem digestBytes_length (h : Accumulator) : (digestBytes h).length = 20 := rfl

@[simp] theorem hexText_length (h : Accumulator) (uc : Bool) : (hexText h uc).length = 40 := rfl

/-! ## One response -/

@[simp] theorem refusedState_rsp (c : Code) (s : State) : (refusedState c s).rsp = s.rsp ++ [⟨c, []⟩] := by
  simp [refusedState]

/-- The data bytes each command emits when it executes (20_memory.md R67). -/
def okDataLength : Instr → Nat
  | .init _ => 0
  | .update _ => 0
  | .finish => 0
  | .rddig => 20
  | .rdtext => 40
  | .hasht _ _ => 40
  | .hashb _ => 20
  | .rdsr _ => 4

/-- `t` holds one response more than `s`: `n` data bytes with `OK`, none with another code. -/
def OneResponse (n : Nat) (s t : State) : Prop :=
  ∃ r, t.rsp = s.rsp ++ [r] ∧ (r.code ≠ .ok → r.data = []) ∧ (r.code = .ok → r.data.length = n)

/-- A command that executes emits its data with one `OK` response, whatever else of the state it has written. -/
theorem OneResponse.of_respond {n : Nat} {s u : State} {data : List Byte} (hlen : data.length = n)
    (hrsp : u.rsp = s.rsp) : OneResponse n s (respond .ok data u) :=
  ⟨⟨.ok, data⟩, by rw [respond_rsp, hrsp], fun h => absurd rfl h, fun _ => hlen⟩

/-- A refusal is one response without data (60_exceptions.md R170). -/
theorem OneResponse.of_refusedState (n : Nat) {s u : State} {c : Code} (hc : c ≠ .ok) (hrsp : u.rsp = s.rsp) :
    OneResponse n s (refusedState c u) :=
  ⟨⟨c, []⟩, by rw [refusedState_rsp, hrsp], fun _ => rfl, fun h => absurd h hc⟩

theorem CommandAnswer.oneResponse {i : Instr} {s t : State} (h : CommandAnswer i s t) :
    OneResponse (okDataLength i) s t := by
  cases h with
  | updateFinal | updateOverflow | finishFinal | rddigOpened | rdtextOpened | rdsrIllegal =>
    exact .of_refusedState _ (by decide) (by simp)
  | init | update | finish => exact .of_respond rfl (by simp)
  | rddig | hashb => exact .of_respond (digestBytes_length _) (by simp)
  | rdtext | hasht => exact .of_respond (hexText_length _ _) (by simp)
  | rdsr _ _ v => exact .of_respond (wordBytes_length v) (by simp)

/-- A step that takes a command word gives one response, whether the word decodes or not. -/
theorem step_command_oneResponse {s t : State} {w : CmdWord} {rest : List HostInput}
    (hin : s.inputs = .command w :: rest) (h : step s = .next t) : ∃ n, OneResponse n s t := by
  cases step_next h with
  | idle hnil => rw [hin] at hnil; cases hnil
  | reset _ hreset => rw [hin] at hreset; cases hreset
  | command _ _ i _ _ _ ha => exact ⟨okDataLength i, ha.oneResponse⟩
  | illegalWord => exact ⟨0, .of_refusedState 0 (by decide) (by simp)⟩

end Sys2Proof.Machine

namespace Sys2Proof.Proofs
open Sys2Proof.Machine

/-- Settles O12: one response for each command and each word taken, by the answers a command can give. -/
theorem oneResponseOfFixedLength : Obligations.OneResponseOfFixedLength := by
  unfold Obligations.OneResponseOfFixedLength
  refine ⟨?_, ?_, rfl, rfl, rfl, rfl⟩
  · intro i s t h
    obtain ⟨r, hrsp, hrefused, hok⟩ := (exec_next h).oneResponse
    refine ⟨r, hrsp, hrefused, fun hcode => (hok hcode).trans ?_⟩
    cases i <;> rfl
  · intro s t w rest hin h
    obtain ⟨_, r, hrsp, -⟩ := step_command_oneResponse hin h
    exact ⟨r, hrsp⟩

end Sys2Proof.Proofs
end

section
/-! SUPPORT. The words of a block are big-endian (20_memory.md R53, 43_compression_round.md R141): the joined form of
`loadWords`, its shift form, and `MemRead` of the staging buffer. -/

namespace Sys2Proof.Machine

/-- Word `i` of a byte string joins its bytes `4i` to `4i+3`, the first one most significant
(43_compression_round.md R141). -/
theorem getD_loadWords (m : List Byte) (i : Nat) (h : 4 * i + 3 < m.length) :
    (loadWords m).getD i 0 =
      m.getD (4 * i) 0 ++ m.getD (4 * i + 1) 0 ++ m.getD (4 * i + 2) 0 ++ m.getD (4 * i + 3) 0 := by
  induction m using loadWords.induct generalizing i with
  | case1 b0 b1 b2 b3 rest ih =>
    cases i with
    | zero => rfl
    | succ i =>
      simp only [List.length_cons] at h
      rw [loadWords, List.getD_cons_succ, ih i (by omega)]
      rfl
  | case2 m hm =>
    match m with
    | b0 :: b1 :: b2 :: b3 :: rest => exact absurd rfl (hm b0 b1 b2 b3 rest)
    | [] | [_] | [_, _] | [_, _, _] => simp at h

/-- Shifting a byte up in a word, by at most 24 bits, loses none of its bits. -/
theorem toNat_setWidth_shiftLeft (b : Byte) {k : Nat} (h : k ≤ 24) :
    (b.setWidth 32 <<< k).toNat = b.toNat <<< k := by
  have hlt : b.toNat <<< k < 2 ^ 32 :=
    calc b.toNat <<< k = b.toNat * 2 ^ k := Nat.shiftLeft_eq ..
      _ < 2 ^ 8 * 2 ^ k := Nat.mul_lt_mul_of_pos_right b.isLt (Nat.two_pow_pos k)
      _ ≤ 2 ^ 8 * 2 ^ 24 := Nat.mul_le_mul_left _ (Nat.pow_le_pow_right (by decide) h)
  rw [BitVec.toNat_shiftLeft, BitVec.toNat_setWidth_of_le (by decide), Nat.mod_eq_of_lt hlt]

/-- Four bytes joined are the four bytes shifted into their places (20_memory.md R53). -/
theorem append_four_eq_shift (b0 b1 b2 b3 : Byte) :
    (b0 ++ b1 ++ b2 ++ b3 : BitVec 32) =
      b0.setWidth 32 <<< 24 ||| b1.setWidth 32 <<< 16 ||| b2.setWidth 32 <<< 8 ||| b3.setWidth 32 := by
  apply BitVec.eq_of_toNat_eq
  have h0 := toNat_setWidth_shiftLeft b0 (k := 24) (by decide)
  have h1 := toNat_setWidth_shiftLeft b1 (k := 16) (by decide)
  have h2 := toNat_setWidth_shiftLeft b2 (k := 8) (by decide)
  have h3 : (b3.setWidth 32).toNat = b3.toNat := BitVec.toNat_setWidth_of_le (by decide)
  simp only [BitVec.toNat_append, BitVec.toNat_or, h0, h1, h2, h3, Nat.shiftLeft_or_distrib, ← Nat.shiftLeft_add]

/-- `MemRead` of four bytes, written out (00_scope.md R10). -/
theorem memRead_four (m : Memory) (a : Nat) :
    memRead m a 4 = m.read a ++ m.read (a + 1) ++ m.read (a + 2) ++ m.read (a + 3) := by
  simp only [memRead, Nat.add_zero]
  have h : (0#0 ++ m.read a : BitVec (0 + 8)) = m.read a := BitVec.zero_width_append _ _
  exact congrArg (fun b : Byte => b ++ m.read (a + 1) ++ m.read (a + 2) ++ m.read (a + 3)) h

/-- Byte `i` of the block, read with a default, is `BUF[i]` below 64. -/
theorem getD_bufBlock (m : Memory) {i : Nat} (h : i < 64) : (bufBlock m).getD i 0 = m.read i := by
  rw [List.getD_eq_getElem _ _ (by rwa [bufBlock_length]), bufBlock_getElem]

/-- Word `i` of the buffer's block is `MemRead(4i, 4)` (20_memory.md R53). -/
theorem getD_loadWords_bufBlock (m : Memory) {i : Nat} (h : i < 16) :
    (loadWords (bufBlock m)).getD i 0 = memRead m (4 * i) 4 := by
  rw [getD_loadWords _ _ (by rw [bufBlock_length]; omega), memRead_four, getD_bufBlock m (by omega),
    getD_bufBlock m (by omega), getD_bufBlock m (by omega), getD_bufBlock m (by omega)]

end Sys2Proof.Machine

namespace Sys2Proof.Proofs
open Sys2Proof.Machine

/-- Settles O13: each word joins its four bytes, which is the shift form and, over the staging buffer, `MemRead`. -/
theorem blockWordsAreBigEndian : Obligations.BlockWordsAreBigEndian := by
  unfold Obligations.BlockWordsAreBigEndian
  refine ⟨fun M hM => ⟨by rw [loadWords_length, hM], fun i hi => ?_⟩, fun m i hi => ?_⟩
  · have hword := getD_loadWords M i (by omega)
    exact ⟨hword, hword.trans (append_four_eq_shift ..)⟩
  · exact ⟨getD_loadWords_bufBlock m hi, memRead_four m (4 * i)⟩

end Sys2Proof.Proofs
end

section
/-! SUPPORT. The opcode map by fields (30_encoding.md R73): what each row selects, when `Decode` gives a command and
when it rejects a word. -/

namespace Sys2Proof

/-! ## When `Decode` gives each of its answers -/

theorem decode_of_opField_one {w : CmdWord} (h : opField w = 1) :
    decode w = decodeNoArg (argField w) (.init ((flgField w).getLsbD 0)) := by
  rw [decode, if_pos h]

theorem decode_of_opField_six {w : CmdWord} (h : opField w = 6) :
    decode w = .ok (.hasht ((flgField w).getLsbD 0) (argField w).toNat) := by
  simp [decode, h]

/-- A word decodes to a command exactly when its fields are that command's. -/
theorem decode_eq_ok_iff {w : CmdWord} {i : Instr} : decode w = .ok i ↔ DecodeAnswer w (.ok i) := by
  refine ⟨decode_ok, fun h => ?_⟩
  cases i with
  | init uc =>
    obtain ⟨hop, harg, rfl⟩ := h
    simp [decode, decodeNoArg, hop, harg]
  | update len =>
    obtain ⟨hop, hflg, rfl⟩ := h
    simp [decode, decodeNoFlags, hop, hflg]
  | finish | rddig | rdtext =>
    obtain ⟨hop, hflg, harg⟩ := h
    simp [decode, decodeNoOperand, decodeNoArg, hop, hflg, harg]
  | hasht uc len =>
    obtain ⟨hop, rfl, rfl⟩ := h
    exact decode_of_opField_six hop
  | hashb len =>
    obtain ⟨hop, hflg, rfl⟩ := h
    simp [decode, decodeNoFlags, hop, hflg]
  | rdsr sel =>
    obtain ⟨hop, hflg, harg, rfl⟩ := h
    simp [decode, decodeSelect, decodeNoFlags, hop, hflg, harg]

/-- The fields of a command are no rejected word's. -/
theorem not_decodeAnswer_error_of_ok {w : CmdWord} {i : Instr} (h : DecodeAnswer w (.ok i)) (e : DecodeReject) :
    ¬ DecodeAnswer w (.error e) := by
  cases i with
  | init uc =>
    obtain ⟨hop, harg, -⟩ := h
    simp [DecodeAnswer, hop, harg]
  | update len | hashb len =>
    obtain ⟨hop, hflg, -⟩ := h
    simp [DecodeAnswer, hop, hflg]
  | finish | rddig | rdtext =>
    obtain ⟨hop, hflg, harg⟩ := h
    simp [DecodeAnswer, hop, hflg, harg]
  | hasht uc len =>
    obtain ⟨hop, -, -⟩ := h
    simp [DecodeAnswer, hop]
  | rdsr sel =>
    obtain ⟨hop, hflg, harg, -⟩ := h
    simp [DecodeAnswer, hop, hflg, harg]

/-- A word is rejected exactly when its fields are no command's; they do not tell the reason `e`. -/
theorem decode_rejects_iff {w : CmdWord} (e : DecodeReject) :
    (∃ e', decode w = .error e') ↔ DecodeAnswer w (.error e) := by
  constructor
  · rintro ⟨e', h⟩
    exact (decode_error h :)
  · intro h
    cases hd : decode w with
    | error e' => exact ⟨e', rfl⟩
    | ok i => exact absurd h (not_decodeAnswer_error_of_ok (decode_ok hd) e)

/-! ## The rows of the opcode map by fields -/

/-- A word masked field by field. -/
theorem and_cmdWord_eq_iff {w : CmdWord} {op flg op' flg' : BitVec 4} {arg arg' : BitVec 24} :
    w &&& cmdWord op' flg' arg' = cmdWord op flg arg ↔
      opField w &&& op' = op ∧ flgField w &&& flg' = flg ∧ argField w &&& arg' = arg := by
  rw [← cmdWord_inj, ← cmdWord_and, cmdWord_fields]

/-- A row that matches its opcode whole and asks the masked flag and `ARG` bits to be 0. -/
def rowOfFields (mnemonic : String) (op flgMask : BitVec 4) (argMask : BitVec 24) : OpcodeRow :=
  ⟨mnemonic, cmdWord op 0 0, cmdWord (.allOnes 4) flgMask argMask⟩

@[simp] theorem rowOfFields_mnemonic (mnemonic : String) (op flgMask : BitVec 4) (argMask : BitVec 24) :
    (rowOfFields mnemonic op flgMask argMask).mnemonic = mnemonic := rfl

theorem selects_rowOfFields {mnemonic : String} {op flgMask : BitVec 4} {argMask : BitVec 24} {w : CmdWord} :
    (rowOfFields mnemonic op flgMask argMask).selects w = true ↔
      opField w = op ∧ flgField w &&& flgMask = 0 ∧ argField w &&& argMask = 0 := by
  rw [OpcodeRow.selects, beq_iff_eq, rowOfFields, and_cmdWord_eq_iff, BitVec.and_allOnes]

/-- The opcode map, each row by its fields (30_encoding.md R72, R73). -/
theorem opcodeRows_eq :
    opcodeRows =
      [rowOfFields "INIT" 1 0 (.allOnes 24), rowOfFields "UPDATE" 2 (.allOnes 4) 0,
       rowOfFields "FINISH" 3 (.allOnes 4) (.allOnes 24), rowOfFields "RDDIG" 4 (.allOnes 4) (.allOnes 24),
       rowOfFields "RDTEXT" 5 (.allOnes 4) (.allOnes 24), rowOfFields "HASHT" 6 0 0,
       rowOfFields "HASHB" 7 (.allOnes 4) 0, rowOfFields "RDSR" 8 (.allOnes 4) 0xFFFFFC] := by
  decide

/-- The mask of RDSR's `ARG` leaves the selects 0 to 3 (30_encoding.md R77). -/
theorem and_selectMask_eq_zero_iff {arg : BitVec 24} : arg &&& 0xFFFFFC = 0 ↔ arg.toNat ≤ 3 := by
  constructor
  · intro h
    have hlow : arg = arg &&& 3 :=
      calc arg = arg &&& (0xFFFFFC ||| 3) := (BitVec.and_allOnes (x := arg)).symm
        _ = arg &&& 3 := by rw [BitVec.and_or_distrib_left, h]; simp
    rw [hlow, BitVec.toNat_and]
    exact Nat.and_le_right
  · intro h
    have hcases : arg = 0 ∨ arg = 1 ∨ arg = 2 ∨ arg = 3 := by bv_omega
    rcases hcases with rfl | rfl | rfl | rfl <;> decide

/-- Rows of the map with one mnemonic are one row. -/
theorem opcodeRows_mnemonic_inj :
    ∀ r ∈ opcodeRows, ∀ r' ∈ opcodeRows, r.mnemonic = r'.mnemonic → r = r' := by
  decide

/-- A word that selects a row decodes to that row's command. -/
theorem decode_of_selects {w : CmdWord} {r : OpcodeRow} (hr : r ∈ opcodeRows) (h : r.selects w = true) :
    ∃ i, decode w = .ok i ∧ i.mnemonic = r.mnemonic := by
  simp only [opcodeRows_eq, List.mem_cons, List.not_mem_nil, or_false] at hr
  rcases hr with rfl | rfl | rfl | rfl | rfl | rfl | rfl | rfl <;>
    obtain ⟨hop, hflg, harg⟩ := selects_rowOfFields.1 h <;>
    simp only [BitVec.ofNat_eq_ofNat, BitVec.and_allOnes, BitVec.and_zero] at hflg harg
  · exact ⟨.init _, decode_eq_ok_iff.2 ⟨hop, harg, rfl⟩, rfl⟩
  · exact ⟨.update _, decode_eq_ok_iff.2 ⟨hop, hflg, rfl⟩, rfl⟩
  · exact ⟨.finish, decode_eq_ok_iff.2 ⟨hop, hflg, harg⟩, rfl⟩
  · exact ⟨.rddig, decode_eq_ok_iff.2 ⟨hop, hflg, harg⟩, rfl⟩
  · exact ⟨.rdtext, decode_eq_ok_iff.2 ⟨hop, hflg, harg⟩, rfl⟩
  · exact ⟨.hasht _ _, decode_eq_ok_iff.2 ⟨hop, rfl, rfl⟩, rfl⟩
  · exact ⟨.hashb _, decode_eq_ok_iff.2 ⟨hop, hflg, rfl⟩, rfl⟩
  · exact ⟨.rdsr _, decode_eq_ok_iff.2 ⟨hop, hflg, and_selectMask_eq_zero_iff.1 harg, rfl⟩, rfl⟩

/-- A word that decodes to a command selects that command's row. -/
theorem exists_row_of_decode_ok {w : CmdWord} {i : Instr} (h : decode w = .ok i) :
    ∃ r ∈ opcodeRows, r.selects w = true ∧ r.mnemonic = i.mnemonic := by
  have hfields := decode_ok h
  rw [opcodeRows_eq]
  cases i with
  | init uc =>
    obtain ⟨hop, harg, -⟩ := hfields
    simp [selects_rowOfFields, Instr.mnemonic, hop, harg]
  | update len | hashb len =>
    obtain ⟨hop, hflg, -⟩ := hfields
    simp [selects_rowOfFields, Instr.mnemonic, hop, hflg]
  | finish | rddig | rdtext =>
    obtain ⟨hop, hflg, harg⟩ := hfields
    simp [selects_rowOfFields, Instr.mnemonic, hop, hflg, harg]
  | hasht uc len =>
    obtain ⟨hop, -, -⟩ := hfields
    simp [selects_rowOfFields, Instr.mnemonic, hop]
  | rdsr sel =>
    obtain ⟨hop, hflg, harg, -⟩ := hfields
    simpa [selects_rowOfFields, Instr.mnemonic, hop, hflg] using and_selectMask_eq_zero_iff.2 harg

/-- The rows of the map are disjoint (30_encoding.md R73). -/
theorem row_eq_of_selects {w : CmdWord} {r r' : OpcodeRow} (hr : r ∈ opcodeRows) (hr' : r' ∈ opcodeRows)
    (h : r.selects w = true) (h' : r'.selects w = true) : r = r' := by
  obtain ⟨i, hd, hi⟩ := decode_of_selects hr h
  obtain ⟨i', hd', hi'⟩ := decode_of_selects hr' h'
  have hii' : i = i' := Except.ok.inj (hd.symm.trans hd')
  exact opcodeRows_mnemonic_inj r hr r' hr' (by rw [← hi, ← hi', hii'])

/-- A word that selects no row is rejected (30_encoding.md R73). -/
theorem decode_error_of_no_row {w : CmdWord} (h : ∀ r ∈ opcodeRows, r.selects w = false) :
    ∃ e, decode w = .error e := by
  cases hd : decode w with
  | error e => exact ⟨e, rfl⟩
  | ok i =>
    obtain ⟨r, hr, hsel, -⟩ := exists_row_of_decode_ok hd
    rw [h r hr] at hsel
    cases hsel

/-- `Decode` does not look at `FLG[3:1]` of INIT and HASHT (30_encoding.md R75). -/
theorem decode_eq_of_masked_eq {w w' : CmdWord} (hop : opField w = 1 ∨ opField w = 6)
    (h : w &&& 0xF1FFFFFF = w' &&& 0xF1FFFFFF) : decode w = decode w' := by
  have hmask : (0xF1FFFFFF : CmdWord) = cmdWord (.allOnes 4) 1 (.allOnes 24) := by decide
  rw [hmask, ← cmdWord_fields w', cmdWord_and, and_cmdWord_eq_iff] at h
  simp only [BitVec.and_allOnes] at h
  obtain ⟨hop', hflg, harg⟩ := h
  have hbit : (flgField w).getLsbD 0 = (flgField w').getLsbD 0 := by
    simpa using congrArg (·.getLsbD 0) hflg
  rcases hop with hop | hop
  · rw [decode_of_opField_one hop, decode_of_opField_one (hop' ▸ hop), harg, hbit]
  · rw [decode_of_opField_six hop, decode_of_opField_six (hop' ▸ hop), harg, hbit]

/-! ## The payload a word owns -/

theorem payloadLen_of_owner {w : CmdWord} (h : opField w = 2 ∨ opField w = 6 ∨ opField w = 7) :
    payloadLen w = (argField w).toNat := by
  rw [payloadLen, if_pos h]

theorem payloadLen_of_not_owner {w : CmdWord} (h : ¬(opField w = 2 ∨ opField w = 6 ∨ opField w = 7)) :
    payloadLen w = 0 := by
  rw [payloadLen, if_neg h]

/-- A reserved opcode owns no payload (30_encoding.md R78). -/
theorem payloadLen_of_reserved {w : CmdWord} (h : opField w = 0 ∨ 9 ≤ (opField w).toNat) : payloadLen w = 0 := by
  refine payloadLen_of_not_owner ?_
  rintro (hop | hop | hop) <;> simp [hop] at h

/-- A decoded command takes the payload its word owns (30_encoding.md R74). -/
theorem payloadLen_of_decode_ok {w : CmdWord} {i : Instr} (h : decode w = .ok i) : i.payloadLen = payloadLen w := by
  have hfields := decode_ok h
  cases i with
  | update len | hashb len =>
    obtain ⟨hop, -, rfl⟩ := hfields
    exact (payloadLen_of_owner (by simp [hop])).symm
  | hasht uc len =>
    obtain ⟨hop, -, rfl⟩ := hfields
    exact (payloadLen_of_owner (by simp [hop])).symm
  | init uc | finish | rddig | rdtext | rdsr sel =>
    obtain ⟨hop, -⟩ := hfields
    exact (payloadLen_of_not_owner (by simp [hop])).symm

end Sys2Proof

namespace Sys2Proof.Machine

/-- The payload of a command that has an answer was there. -/
theorem CommandAnswer.payloadLen_le {i : Instr} {s t : State} (h : CommandAnswer i s t) :
    i.payloadLen ≤ s.din.length := by
  cases h with
  | updateFinal _ _ _ hl | updateOverflow _ _ _ hl | update _ _ _ hl | hasht _ _ _ hl | hashb _ _ hl => exact hl
  | _ => exact Nat.zero_le _

/-- Every answer takes exactly the command's payload, a refusal too (30_encoding.md R74). -/
theorem CommandAnswer.din_eq {i : Instr} {s t : State} (h : CommandAnswer i s t) :
    t.din = s.din.drop i.payloadLen := by
  cases h with
  | _ => simp [refusedState, Instr.payloadLen]

/-- When the bad fields of an opcode are among those of the rejected words, each such word is refused. -/
theorem illegalWhen_of_fields {op : BitVec 4} {bad : BitVec 4 → BitVec 24 → Prop} (e : DecodeReject)
    (h : ∀ w, opField w = op → bad (flgField w) (argField w) → DecodeAnswer w (.error e)) : IllegalWhen op bad :=
  illegalWhen_of_decode fun w hop hbad => (decode_rejects_iff e).2 (h w hop hbad)

/-- A word that `Decode` rejects, its payload there, is refused with `ILLEGAL` (60_exceptions.md R171, R175). -/
theorem step_refused_of_decode_error {s : State} {w : CmdWord} {rest : List HostInput}
    (hin : s.inputs = .command w :: rest) (hd : ∃ e, decode w = .error e) (hl : payloadLen w ≤ s.din.length) :
    ∃ t, step s = .next t ∧ Refused (payloadLen w) .illegal { s with inputs := rest } t := by
  obtain ⟨e, hd⟩ := hd
  refine ⟨_, ?_, refused_refusedState (payloadLen w) .illegal { s with inputs := rest }⟩
  rw [step_of_command hin, runWord_of_decode_error hd]
  exact refuseIllegalWord_of_le hl

/-- A step that completes a command word found the word's payload there, and took just that (30_encoding.md R74). -/
theorem step_takes_payload {s t : State} {w : CmdWord} {rest : List HostInput} (hin : s.inputs = .command w :: rest)
    (h : step s = .next t) : payloadLen w ≤ s.din.length ∧ t.din = s.din.drop (payloadLen w) := by
  cases step_next h with
  | idle hnil => rw [hin] at hnil; cases hnil
  | reset _ hreset => rw [hin] at hreset; cases hreset
  | command w' rest' i _ hin' hd ha =>
    rw [hin] at hin'
    cases hin'
    rw [← payloadLen_of_decode_ok hd]
    exact ⟨ha.payloadLen_le, ha.din_eq⟩
  | illegalWord w' rest' e hin' hd hl =>
    rw [hin] at hin'
    cases hin'
    exact ⟨hl, by simp [refusedState]⟩

/-- A word whose payload is there is no stop: the command runs or is refused (20_memory.md R68). -/
theorem step_next_of_payload {s : State} {w : CmdWord} {rest : List HostInput} (hin : s.inputs = .command w :: rest)
    (hl : payloadLen w ≤ s.din.length) : ∃ t, step s = .next t := by
  cases hd : decode w with
  | ok i =>
    rw [← payloadLen_of_decode_ok hd] at hl
    obtain ⟨t, ht, -⟩ := exec_next_of_payload i { s with inputs := rest } hl
    exact ⟨t, by rw [step_of_command hin, runWord_of_decode_ok hd, ht]⟩
  | error e =>
    obtain ⟨t, ht, -⟩ := step_refused_of_decode_error hin ⟨e, hd⟩ hl
    exact ⟨t, ht⟩

end Sys2Proof.Machine

namespace Sys2Proof.Proofs
open Sys2Proof.Machine

/-- Settles O3: each row's mask and match are its command's field conditions. -/
theorem decodeFollowsTheOpcodeMap : Obligations.DecodeFollowsTheOpcodeMap := by
  unfold Obligations.DecodeFollowsTheOpcodeMap
  refine ⟨fun w r => decode_of_selects, fun w i => exists_row_of_decode_ok, fun w r r' => row_eq_of_selects, ?_⟩
  exact fun s w rest hin hrow => step_refused_of_decode_error hin (decode_error_of_no_row hrow)

/-- Settles O4: the word owns what its command takes, and every answer and every refusal takes just that. -/
theorem everyCommandTakesItsPayloadLength : Obligations.EveryCommandTakesItsPayloadLength := by
  unfold Obligations.EveryCommandTakesItsPayloadLength
  exact ⟨fun w => ⟨payloadLen_of_owner, payloadLen_of_not_owner⟩, fun s t w rest => step_takes_payload,
    fun s w rest => step_next_of_payload⟩

/-- Settles O5: `Decode` rejects the reserved opcodes, which own no payload; a word it accepts selects one row. -/
theorem reservedOpcodesAreRefused : Obligations.ReservedOpcodesAreRefused := by
  unfold Obligations.ReservedOpcodesAreRefused
  constructor
  · intro s w rest hin hop
    have hlen := payloadLen_of_reserved hop
    have hd := (decode_rejects_iff .reservedOpcode).2 (.inl hop)
    simpa only [hlen] using step_refused_of_decode_error hin hd (by omega)
  · intro w
    cases hd : decode w with
    | ok i =>
      obtain ⟨r, hr, hsel, -⟩ := exists_row_of_decode_ok hd
      exact .inl ⟨r, hr, hsel, fun r' hr' hsel' => row_eq_of_selects hr' hr hsel' hsel⟩
    | error e => exact .inr fun s rest hin => step_refused_of_decode_error hin ⟨e, hd⟩

/-- Settles O6: the bad fields of each form are among those `Decode` rejects, and the masked word decodes alike. -/
theorem mustBeZeroFieldsAreChecked : Obligations.MustBeZeroFieldsAreChecked := by
  unfold Obligations.MustBeZeroFieldsAreChecked
  refine ⟨illegalWhen_of_fields .argNotZero ?_, illegalWhen_of_fields .flagsNotZero ?_,
    illegalWhen_of_fields .flagsNotZero ?_, illegalWhen_of_fields .flagsNotZero ?_,
    illegalWhen_of_fields .flagsNotZero ?_, illegalWhen_of_fields .flagsNotZero ?_,
    illegalWhen_of_fields .flagsNotZero ?_, fun w w' => decode_eq_of_masked_eq⟩
  all_goals
    intro w hop hbad
    simpa [DecodeAnswer, hop] using hbad

end Sys2Proof.Proofs
end

section
/-! SUPPORT. `Absorb` byte by byte and the streaming commands INIT and UPDATE (40_stream_commands.md R100 to R102). -/

namespace Sys2Proof

/-! ## The words of INIT and UPDATE -/

/-- The hex-case bit `FLG[0]` is bit 24 of the word (30_encoding.md R71, R75). -/
theorem getLsbD_zero_flgField (w : CmdWord) : (flgField w).getLsbD 0 = w.getLsbD 24 := by
  simp [flgField]

theorem decode_init_of_masked {w : CmdWord} (h : w &&& 0xF0FFFFFF = 0x10000000) :
    decode w = .ok (.init (w.getLsbD 24)) := by
  have hmask : (0xF0FFFFFF : CmdWord) = cmdWord (.allOnes 4) 0 (.allOnes 24) := by decide
  have hmatch : (0x10000000 : CmdWord) = cmdWord 1 0 0 := by decide
  rw [hmask, hmatch, and_cmdWord_eq_iff, BitVec.and_allOnes, BitVec.and_allOnes] at h
  obtain ⟨hop, -, harg⟩ := h
  exact decode_eq_ok_iff.2 ⟨hop, harg, (getLsbD_zero_flgField w).symm⟩

theorem decode_update_of_masked {w : CmdWord} (h : w &&& 0xFF000000 = 0x20000000) :
    decode w = .ok (.update (argField w).toNat) := by
  have hmask : (0xFF000000 : CmdWord) = cmdWord (.allOnes 4) (.allOnes 4) 0 := by decide
  have hmatch : (0x20000000 : CmdWord) = cmdWord 2 0 0 := by decide
  rw [hmask, hmatch, and_cmdWord_eq_iff, BitVec.and_allOnes, BitVec.and_allOnes] at h
  obtain ⟨hop, hflg, -⟩ := h
  exact decode_eq_ok_iff.2 ⟨hop, hflg, rfl⟩

end Sys2Proof

namespace Sys2Proof.Machine

/-! ## Absorbing a payload -/

/-- The test on the new `COUNT` finds a full block exactly when the old fill level is 63. -/
theorem countSucc_mod_eq_zero_iff (s : State) : (s.count + 1#64).toNat % 64 = 0 ↔ fillLevel s = 63 := by
  have hnew : (s.count + 1#64).toNat % 64 = (fillLevel s + 1) % 64 := fillLevel_stage 0 s
  have hlt := fillLevel_lt s
  omega

theorem absorb_of_fillLevel_eq {s : State} (h : fillLevel s = 63) (b : Byte) :
    absorb s b = compressBuf (stage b s) := by
  rcases absorb_cases s b with ⟨-, heq⟩ | ⟨hlt, -⟩
  · exact heq
  · omega

theorem absorb_of_fillLevel_ne {s : State} (h : fillLevel s ≠ 63) (b : Byte) : absorb s b = stage b s := by
  rcases absorb_cases s b with ⟨hfull, -⟩ | ⟨-, heq⟩
  · exact absurd hfull h
  · exact heq

/-- `Absorb` does not look at `DIN`. -/
theorem absorb_afterPayload (n : Nat) (s : State) (b : Byte) :
    absorb (afterPayload n s) b = afterPayload n (absorb s b) := by
  have hfill : fillLevel (afterPayload n s) = fillLevel s := rfl
  by_cases h : fillLevel s = 63
  · rw [absorb_of_fillLevel_eq h, absorb_of_fillLevel_eq (hfill.trans h)]
    simp only [compressBuf, stage, afterPayload, fillLevel]
  · rw [absorb_of_fillLevel_ne h, absorb_of_fillLevel_ne (hfill ▸ h)]
    rfl

/-- The payload's bytes may be taken off `DIN` before or after they are absorbed. -/
theorem absorbAll_afterPayload (p : List Byte) (n : Nat) (s : State) :
    absorbAll p (afterPayload n s) = afterPayload n (absorbAll p s) := by
  induction p generalizing s with
  | nil => rfl
  | cons b p ih => rw [absorbAll_cons, absorb_afterPayload, ih, absorbAll_cons]

/-- While the bytes absorbed do not fill the block, nothing is compressed. -/
theorem absorbAll_h_of_lt {p : List Byte} {s : State} (h : fillLevel s + p.length < 64) :
    (absorbAll p s).h = s.h := by
  induction p generalizing s with
  | nil => rfl
  | cons b p ih =>
    rw [List.length_cons] at h
    have hstaged := fillLevel_stage b s
    rw [absorbAll_cons, absorb_of_fillLevel_ne (by omega), ih (by omega), stage_h]

/-- FRAME: the byte at an index no byte of the payload goes to is as before; the `k`-th byte goes to
`(COUNT + k) mod 64` (20_memory.md R65). -/
theorem read_absorbAll_of_ne {p : List Byte} {s : State} (hwf : s.buf.wf = true) {a : Nat}
    (h : ∀ k < p.length, a ≠ (s.count.toNat + k) % 64) : (absorbAll p s).buf.read a = s.buf.read a := by
  induction p generalizing s with
  | nil => rfl
  | cons b p ih =>
    rw [List.length_cons] at h
    have hnext : ∀ k < p.length, a ≠ ((absorb s b).count.toNat + k) % 64 := by
      intro k hk
      have hindex := h (k + 1) (by omega)
      rw [absorb_count, BitVec.toNat_add, BitVec.toNat_ofNat]
      omega
    have hfirst : a ≠ fillLevel s := h 0 (by omega)
    rw [absorbAll_cons, ih (absorb_wf hwf b) hnext, absorb_buf, Memory.read_write hwf, if_neg hfirst]

/-- Below 2^64 bytes in all, `COUNT` does not wrap. -/
theorem absorbAll_count_toNat {p : List Byte} {s : State} (h : s.count.toNat + p.length < 2 ^ 64) :
    (absorbAll p s).count.toNat = s.count.toNat + p.length := by
  rw [absorbAll_count, BitVec.toNat_add, BitVec.toNat_ofNat]
  omega

/-! ## What UPDATE answers -/

theorem exec_update_of_lt {len : Nat} {s : State} (hp : s.phase = .opened) (hl : len ≤ s.din.length)
    (hc : s.count.toNat + len < 2 ^ 61) :
    exec (.update len) s = .next (respond .ok [] (absorbAll (s.din.take len) (afterPayload len s))) := by
  obtain ⟨t, ht, ha⟩ := exec_next_of_payload (.update len) s hl
  cases ha with
  | update => exact ht
  | updateFinal _ _ hp' => rw [hp] at hp'; cases hp'
  | updateOverflow _ _ _ _ hc' => omega

/-- A closed stream refuses UPDATE whatever its length (60_exceptions.md R174). -/
theorem exec_update_of_final {len : Nat} {s : State} (hp : s.phase = .final) (hl : len ≤ s.din.length) :
    exec (.update len) s = .next (refusedState .phase (afterPayload len s)) := by
  obtain ⟨t, ht, ha⟩ := exec_next_of_payload (.update len) s hl
  cases ha with
  | updateFinal => exact ht
  | update _ _ hp' | updateOverflow _ _ hp' => rw [hp] at hp'; cases hp'

theorem exec_update_of_overflow {len : Nat} {s : State} (hp : s.phase = .opened) (hl : len ≤ s.din.length)
    (hc : 2 ^ 61 ≤ s.count.toNat + len) :
    exec (.update len) s = .next (refusedState .overflow (afterPayload len s)) := by
  obtain ⟨t, ht, ha⟩ := exec_next_of_payload (.update len) s hl
  cases ha with
  | updateOverflow => exact ht
  | updateFinal _ _ hp' => rw [hp] at hp'; cases hp'
  | update _ _ _ _ hc' => omega

end Sys2Proof.Machine

namespace Sys2Proof.Proofs
open Sys2Proof.Machine

/-- Settles O22: INIT writes every field of the context, and its row asks only `ARG` to be 0. -/
theorem initCommand : Obligations.InitCommand := by
  unfold Obligations.InitCommand
  refine ⟨fun uc s => ⟨_, rfl, ?_, by simp [Answered]⟩, fun w => decode_init_of_masked, ?_⟩
  · simp [IsInitState, Accumulator.initial]
  · obtain ⟨hinit, -⟩ := mustBeZeroFieldsAreChecked
    exact hinit

/-- Settles O23: the payload absorbed byte by byte, or one of the two refusals. -/
theorem updateCommand : Obligations.UpdateCommand := by
  unfold Obligations.UpdateCommand
  refine ⟨?_, ?_, ?_, fun w => decode_update_of_masked, ?_⟩
  · intro len s hwf hp hl hc
    have hlen : (s.din.take len).length = len := List.length_take_of_le hl
    have hcount := absorbAll_count_toNat (p := s.din.take len) (s := s) (by omega)
    have hblocks := absorbAll_blocks (s.din.take len) s
    have hframe := fun a => read_absorbAll_of_ne (p := s.din.take len) hwf (a := a)
    have hpartial := absorbAll_h_of_lt (p := s.din.take len) (s := s)
    rw [hlen] at hcount hblocks hframe hpartial
    refine ⟨_, exec_update_of_lt hp hl hc, by simp [Answered], ?_⟩
    rw [absorbAll_afterPayload]
    refine ⟨rfl, fun a => rfl, hcount, hblocks, hpartial, by simp, by simp [hp], by simp, hframe, ?_⟩
    rintro rfl
    simp [SameContext, SameButErr]
  · exact fun len s hp hl => ⟨_, exec_update_of_final hp hl, refused_refusedState len .phase s⟩
  · exact fun len s hp hl hc => ⟨_, exec_update_of_overflow hp hl hc, refused_refusedState len .overflow s⟩
  · obtain ⟨-, hupdate, -⟩ := mustBeZeroFieldsAreChecked
    exact hupdate

/-- Settles O24: `Absorb` stages its byte, and compresses exactly at the fill level 63. -/
theorem absorbOneByte : Obligations.AbsorbOneByte := by
  unfold Obligations.AbsorbOneByte
  refine ⟨fun s b hwf => ?_, fun m s b h => h.of_absorb b⟩
  refine ⟨absorb_count s b, fun a => ?_, fun hfull => ?_, fun hpart => ?_, absorb_uc s b, absorb_phase s b,
    absorb_err s b, absorb_inputs s b, absorb_din s b, absorb_rsp s b⟩
  · rw [absorb_buf, Memory.read_write hwf]
    rfl
  · rw [absorb_of_fillLevel_eq ((countSucc_mod_eq_zero_iff s).1 hfull)]
    simp
  · rw [absorb_of_fillLevel_ne (mt (countSucc_mod_eq_zero_iff s).2 hpart)]
    exact ⟨rfl, rfl⟩

end Sys2Proof.Proofs
end

section
/-! SUPPORT. The padding of FINISH as byte lists (40_stream_commands.md R105): what `BUF` holds when it is compressed. -/

namespace Sys2Proof.Machine

/-! ## The blocks of the padding -/

/-- The first `n` bytes of the buffer, `0x80`, then `z` zero bytes. -/
def markedBytes (m : Memory) (n z : Nat) : List Byte := (List.range n).map m.read ++ [0x80] ++ List.replicate z 0x00

@[simp] theorem markedBytes_length (m : Memory) (n z : Nat) : (markedBytes m n z).length = n + 1 + z := by
  simp only [markedBytes, List.length_append, List.length_map, List.length_range, List.length_singleton,
    List.length_replicate]

theorem getD_markedBytes (m : Memory) {n z a : Nat} (h : a < n + 1 + z) :
    (markedBytes m n z).getD a 0 = if a < n then m.read a else if a = n then 0x80 else 0 := by
  rw [List.getD_eq_getElem _ _ (by simpa using h)]
  simp only [markedBytes, List.getElem_append, List.length_append, List.length_map, List.length_range,
    List.length_singleton]
  by_cases hlt : a < n
  · simp [hlt, show a < n + 1 by omega]
  · by_cases heq : a = n
    · simp [heq]
    · simp [hlt, heq, show ¬ a < n + 1 by omega]

/-- Marking the end and zeroing `z` bytes after it makes the buffer begin with `markedBytes`. -/
theorem read_zeroFill_write_mark {m : Memory} (hwf : m.wf = true) {n z a : Nat} (hz : n + 1 + z ≤ 64)
    (ha : a < n + 1 + z) : (zeroFill (m.write n 0x80) (n + 1) z).read a = (markedBytes m n z).getD a 0 := by
  rw [read_zeroFill (Memory.write_wf hwf (by omega)) _ _ hz, Memory.read_write hwf, getD_markedBytes m ha]
  by_cases hlt : a < n
  · rw [if_neg (by omega), if_neg (by omega), if_pos hlt]
  · by_cases heq : a = n
    · rw [if_neg (by omega), if_pos heq, if_neg hlt, if_pos heq]
    · rw [if_pos (by omega), if_neg hlt, if_neg heq]

@[simp] theorem be64_length (v : BitVec 64) : (be64 v).length = 8 := rfl

theorem getD_be64 (v : BitVec 64) {j : Nat} (h : j < 8) : (be64 v).getD j 0 = v.extractLsb' (8 * (7 - j)) 8 := by
  interval_cases j <;> rfl

/-- `MemWrite(56, 8, L)` completes 56 bytes to a block with the big-endian length (20_memory.md R54). -/
theorem read_memWrite_length {m : Memory} (hwf : m.wf = true) {p : List Byte} (hp : p.length = 56)
    (hread : ∀ a < 56, m.read a = p.getD a 0) (l : BitVec 64) {a : Nat} (ha : a < 64) :
    (memWrite m 56 8 l).read a = (p ++ be64 l).getD a 0 := by
  rw [read_memWrite hwf 56 8 l (by omega)]
  by_cases hlt : a < 56
  · rw [if_neg (by omega), hread a hlt, List.getD_append _ _ _ _ (by omega)]
  · rw [if_pos (by omega), List.getD_append_right _ _ _ _ (by omega), hp, getD_be64 l (by omega)]

/-- A buffer that reads as a 64-byte list is that block. -/
theorem bufBlock_eq_of_read {m : Memory} {p : List Byte} (hp : p.length = 64) (h : ∀ a < 64, m.read a = p.getD a 0) :
    bufBlock m = p := by
  refine List.ext_getElem (by simp [hp]) fun a ha hb => ?_
  rw [bufBlock_getElem, h a (by omega), List.getD_eq_getElem _ _ hb]

/-! ## Closing the stream -/

/-- The last block when the length fits the block at hand. -/
def onePaddingBlock (s : State) : List Byte :=
  markedBytes s.buf (fillLevel s) (55 - fillLevel s) ++ be64 (bitLength s)

/-- The last block when the length needs a block of its own. -/
def lengthOnlyBlock (s : State) : List Byte := List.replicate 56 0x00 ++ be64 (bitLength s)

/-- With at most 55 bytes staged, the padding is one block. -/
theorem closeStream_of_fillLevel_le {s : State} (hwf : s.buf.wf = true) (hn : fillLevel s ≤ 55) :
    (closeStream s).h = compress s.h (onePaddingBlock s) ∧ (closeStream s).blocks = s.blocks + 1#32 ∧
      ∀ a < 64, (closeStream s).buf.read a = (onePaddingBlock s).getD a 0 := by
  rcases closeStream_cases s with ⟨-, hbuf, hh, hblocks⟩ | ⟨hgt, -⟩
  · have hmarked := zeroFill_wf (Memory.write_wf (b := 0x80) hwf (fillLevel_lt s)) (fillLevel s + 1)
      (55 - fillLevel s) (by omega)
    have hread : ∀ a < 64, (closeStream s).buf.read a = (onePaddingBlock s).getD a 0 := by
      intro a ha
      rw [hbuf]
      exact read_memWrite_length hmarked (by rw [markedBytes_length]; omega)
        (fun a ha => read_zeroFill_write_mark hwf (by omega) (by omega)) _ ha
    refine ⟨?_, hblocks, hread⟩
    have hlen : (onePaddingBlock s).length = 64 := by
      rw [onePaddingBlock, List.length_append, markedBytes_length, be64_length]
      omega
    rw [hh, bufBlock_eq_of_read hlen hread]
  · omega

/-- With 56 bytes staged or more, the padding fills the block at hand and takes a second one for the length. -/
theorem closeStream_of_le_fillLevel {s : State} (hwf : s.buf.wf = true) (hn : 56 ≤ fillLevel s) :
    (closeStream s).h =
        compress (compress s.h (markedBytes s.buf (fillLevel s) (63 - fillLevel s))) (lengthOnlyBlock s) ∧
      (closeStream s).blocks = s.blocks + 2#32 ∧
      ∀ a < 64, (closeStream s).buf.read a = (lengthOnlyBlock s).getD a 0 := by
  have hfill := fillLevel_lt s
  rcases closeStream_cases s with ⟨hle, -⟩ | ⟨-, first, rfl, hbuf, hh, hblocks⟩
  · omega
  · have hmarked := zeroFill_wf (Memory.write_wf (b := 0x80) hwf hfill) (fillLevel s + 1) (63 - fillLevel s) (by omega)
    have hfirst := bufBlock_eq_of_read (p := markedBytes s.buf (fillLevel s) (63 - fillLevel s))
      (by rw [markedBytes_length]; omega) fun a ha => read_zeroFill_write_mark hwf (by omega) (by omega)
    have hzero : ∀ a < 56, (zeroFill (zeroFill (s.buf.write (fillLevel s) 0x80) (fillLevel s + 1)
        (63 - fillLevel s)) 0 56).read a = (List.replicate 56 (0x00 : Byte)).getD a 0 := by
      intro a ha
      rw [read_zeroFill hmarked 0 56 (by omega), if_pos (by omega), List.getD_replicate _ ha]
    have hread : ∀ a < 64, (closeStream s).buf.read a = (lengthOnlyBlock s).getD a 0 := by
      intro a ha
      rw [hbuf]
      exact read_memWrite_length (zeroFill_wf hmarked 0 56 (by omega)) (by simp) hzero _ ha
    refine ⟨?_, ?_, hread⟩
    · rw [hh, hfirst, bufBlock_eq_of_read (by simp [lengthOnlyBlock]) hread]
    · rw [hblocks, BitVec.add_assoc]
      rfl

/-! ## What FINISH answers -/

theorem exec_finish_of_opened {s : State} (hp : s.phase = .opened) :
    exec .finish s = .next (respond .ok [] (closeStream s)) := by
  rw [exec, execFinish, hp]

theorem exec_finish_of_final {s : State} (hp : s.phase = .final) : exec .finish s = .next (refusedState .phase s) := by
  rw [exec, execFinish, hp]
  rfl

end Sys2Proof.Machine

namespace Sys2Proof.Proofs
open Sys2Proof.Machine

/-- Settles O27: the padding is one block or two by the fill level, and the rest of the context is kept. -/
theorem finishCommand : Obligations.FinishCommand := by
  unfold Obligations.FinishCommand
  refine ⟨?_, ?_, decode_eq_ok_iff.2 ⟨rfl, rfl, rfl⟩, ?_⟩
  · intro s hwf hp
    exact ⟨_, exec_finish_of_opened hp, by simp [Answered], by simp, by simp, by simp, by simp,
      closeStream_of_fillLevel_le hwf, closeStream_of_le_fillLevel hwf⟩
  · exact fun s hp => ⟨_, exec_finish_of_final hp, refused_refusedState 0 .phase s⟩
  · obtain ⟨-, -, hfinish, -⟩ := mustBeZeroFieldsAreChecked
    exact hfinish

end Sys2Proof.Proofs
end

section
/-! SUPPORT. The two renderings of a digest, character by character (41_output_commands.md R120, R121): pieces of one
length joined, so that a byte's place fixes the word, and a character's place the byte, that it comes from. -/

namespace Sys2Proof.Machine

/-- In pieces of one length joined, place `n * i + j` is place `j` of piece `i`. -/
theorem getD_flatMap_of_length_eq {α β : Type} {f : α → List β} {n : Nat} (hf : ∀ x, (f x).length = n) (a : α) (b : β)
    {l : List α} {i j : Nat} (hi : i < l.length) (hj : j < n) :
    (l.flatMap f).getD (n * i + j) b = (f (l.getD i a)).getD j b := by
  induction l generalizing i with
  | nil => cases hi
  | cons x l ih =>
    rw [List.flatMap_cons]
    cases i with
    | zero => rw [Nat.mul_zero, Nat.zero_add, List.getD_append _ _ _ _ (by rwa [hf]), List.getD_cons_zero]
    | succ i =>
      have hplace : n * (i + 1) + j = n + (n * i + j) := by rw [Nat.mul_succ]; omega
      rw [hplace, List.getD_append_right _ _ _ _ (by rw [hf]; omega), hf, Nat.add_sub_cancel_left,
        ih (Nat.succ_lt_succ_iff.1 hi), List.getD_cons_succ]

/-- Byte `j` of a word, the most significant first (20_memory.md R55). -/
theorem getD_wordBytes (v : BitVec 32) {j : Nat} (h : j < 4) :
    (wordBytes v).getD j 0 = v.extractLsb' (24 - 8 * j) 8 := by
  match j, h with
  | 0, _ | 1, _ | 2, _ | 3, _ => rfl

/-- The digest's bytes are those of its five words in order (41_output_commands.md R120). -/
theorem digestBytes_eq_flatMap (h : Accumulator) :
    digestBytes h = [h.h0, h.h1, h.h2, h.h3, h.h4].flatMap wordBytes := rfl

@[simp] theorem byteText_length (uc : Bool) (b : Byte) : (byteText uc b).length = 2 := rfl

/-- Character `j` of byte `k` of the digest stands at `2k + j` of its text (41_output_commands.md R121). -/
theorem getD_hexText (h : Accumulator) (uc : Bool) {k j : Nat} (hk : k < 20) (hj : j < 2) :
    (hexText h uc).getD (2 * k + j) 0 = (byteText uc ((digestBytes h).getD k 0)).getD j 0 :=
  getD_flatMap_of_length_eq (byteText_length uc) 0 0 (by rwa [digestBytes_length]) hj

/-- `HexChar` as numbers: none of its sums and differences wraps (41_output_commands.md R121). -/
theorem hexChar_toNat (v : BitVec 4) (uc : Bool) :
    (hexChar v uc).toNat =
      if v.toNat ≤ 9 then 0x30 + v.toNat else if uc then 0x41 + (v.toNat - 10) else 0x61 + (v.toNat - 10) := by
  have hv : (v.setWidth 8).toNat = v.toNat := BitVec.toNat_setWidth_of_le (by decide)
  unfold hexChar
  by_cases hdigit : v.toNat ≤ 9
  · rw [if_pos hdigit, if_pos hdigit]
    bv_omega
  · rw [if_neg hdigit, if_neg hdigit]
    cases uc <;> simp only [Bool.false_eq_true, if_true, if_false] <;> bv_omega

end Sys2Proof.Machine

namespace Sys2Proof.Proofs
open Sys2Proof.Machine

/-- Settles O15: the digest is its five words in order, each four bytes, most significant first. -/
theorem digestBytesAreBigEndian : Obligations.DigestBytesAreBigEndian := by
  unfold Obligations.DigestBytesAreBigEndian
  refine fun h => ⟨digestBytes_length h, fun i hi j hj => ?_⟩
  rw [digestBytes_eq_flatMap, getD_flatMap_of_length_eq wordBytes_length 0 0 hi hj, getD_wordBytes _ hj]

/-- Settles O16: two characters for each byte of the digest, and the table of `HexChar`. -/
theorem hexTextLayout : Obligations.HexTextLayout := by
  unfold Obligations.HexTextLayout
  refine ⟨fun h uc => ⟨hexText_length h uc, fun k hk => ⟨?_, ?_⟩⟩, hexChar_toNat⟩
  · exact getD_hexText h uc hk (j := 0) (by decide)
  · exact getD_hexText h uc hk (j := 1) (by decide)

end Sys2Proof.Proofs
end

section
/-! SUPPORT. The output commands RDDIG, RDTEXT and RDSR (41_output_commands.md R122 to R124): a response and nothing
else, or a refusal; and the status values of 10_state.md R35 as numbers. -/

namespace Sys2Proof.Machine

/-! ## The digest commands by phase -/

theorem exec_rddig_of_final {s : State} (hp : s.phase = .final) :
    exec .rddig s = .next (respond .ok (digestBytes s.h) s) := by
  rw [exec, execRddig, hp]

theorem exec_rddig_of_opened {s : State} (hp : s.phase = .opened) : exec .rddig s = .next (refusedState .phase s) := by
  rw [exec, execRddig, hp]
  rfl

theorem exec_rdtext_of_final {s : State} (hp : s.phase = .final) :
    exec .rdtext s = .next (respond .ok (hexText s.h s.uc) s) := by
  rw [exec, execRdtext, hp]

theorem exec_rdtext_of_opened {s : State} (hp : s.phase = .opened) :
    exec .rdtext s = .next (refusedState .phase s) := by
  rw [exec, execRdtext, hp]
  rfl

/-- A response alone writes nothing of the context and takes no payload (20_memory.md R67). -/
theorem respond_keeps_context (c : Code) (data : List Byte) (s : State) :
    SameContext s (respond c data s) ∧ Answered 0 c data s (respond c data s) := by
  simp [SameContext, SameButErr, Answered]

/-! ## The status values as numbers -/

/-- Two bit vectors joined, as a number. -/
theorem toNat_append_eq_mul_add {m n : Nat} (x : BitVec m) (y : BitVec n) :
    (x ++ y).toNat = x.toNat * 2 ^ n + y.toNat := by
  rw [BitVec.toNat_append, ← Nat.shiftLeft_add_eq_or_of_lt y.isLt, Nat.shiftLeft_eq]

theorem Phase.toNat_bit (p : Phase) : p.bit.toNat = if p = .final then 1 else 0 := by
  cases p <;> rfl

/-- `STATUS` as a number (10_state.md R35). -/
theorem statusWord_toNat (s : State) :
    (statusWord s).toNat = 16 * s.err.toNat + 2 * s.uc.toNat + if s.phase = .final then 1 else 0 := by
  have hjoin : (statusWord s).toNat =
      (0#24 ++ s.err ++ 0#2 ++ BitVec.ofBool s.uc ++ s.phase.bit : BitVec (24 + 4 + 2 + 1 + 1)).toNat := rfl
  simp only [hjoin, toNat_append_eq_mul_add, BitVec.toNat_ofBool, Phase.toNat_bit, BitVec.toNat_zero]
  omega

/-- The select `ARG` of a word RDSR's row selects is its last two bits (30_encoding.md R73, R77). -/
theorem decode_rdsr_of_masked {w : CmdWord} (h : w &&& 0xFFFFFFFC = 0x80000000) :
    decode w = .ok (.rdsr (w.extractLsb' 0 2).toNat) := by
  have hmask : (0xFFFFFFFC : CmdWord) = cmdWord (.allOnes 4) (.allOnes 4) 0xFFFFFC := by decide
  have hmatch : (0x80000000 : CmdWord) = cmdWord 8 0 0 := by decide
  rw [hmask, hmatch, and_cmdWord_eq_iff, BitVec.and_allOnes, BitVec.and_allOnes, and_selectMask_eq_zero_iff] at h
  obtain ⟨hop, hflg, harg⟩ := h
  have hsel : (w.extractLsb' 0 2).toNat = (argField w).toNat := by
    simp only [argField, BitVec.extractLsb'_toNat, Nat.shiftRight_zero] at harg ⊢
    omega
  exact decode_eq_ok_iff.2 ⟨hop, hflg, harg, hsel⟩

end Sys2Proof.Machine

namespace Sys2Proof.Proofs
open Sys2Proof.Machine

/-- Settles O31: in `FINAL` the response alone, in `OPEN` the refusal. -/
theorem rddigCommand : Obligations.RddigCommand := by
  unfold Obligations.RddigCommand
  refine ⟨fun s hp => ⟨_, exec_rddig_of_final hp, respond_keeps_context ..⟩,
    fun s hp => ⟨_, exec_rddig_of_opened hp, refused_refusedState 0 .phase s⟩, decode_eq_ok_iff.2 ⟨rfl, rfl, rfl⟩, ?_⟩
  obtain ⟨-, -, -, hrddig, -⟩ := mustBeZeroFieldsAreChecked
  exact hrddig

/-- Settles O32: in `FINAL` the response alone, with the stored case; in `OPEN` the refusal. -/
theorem rdtextCommand : Obligations.RdtextCommand := by
  unfold Obligations.RdtextCommand
  refine ⟨fun s hp => ⟨_, exec_rdtext_of_final hp, respond_keeps_context ..⟩,
    fun s hp => ⟨_, exec_rdtext_of_opened hp, refused_refusedState 0 .phase s⟩, decode_eq_ok_iff.2 ⟨rfl, rfl, rfl⟩, ?_⟩
  obtain ⟨-, -, -, -, hrdtext, -⟩ := mustBeZeroFieldsAreChecked
  exact hrdtext

/-- Settles O33: the bytes of the value the select names, in any phase, or the refusal above 3. -/
theorem rdsrCommand : Obligations.RdsrCommand := by
  unfold Obligations.RdsrCommand
  refine ⟨?_, fun sel s hsel => ⟨_, exec_rdsr_of_lt s hsel, refused_refusedState 0 .illegal s⟩,
    fun w => decode_rdsr_of_masked, ?_⟩
  · intro sel s hsel
    rcases statusValue_cases sel s with ⟨-, v, hv⟩ | ⟨hsel', -⟩
    · obtain ⟨hcontext, hanswer⟩ := respond_keeps_context .ok (wordBytes v) s
      refine ⟨_, v, exec_rdsr_of_some hv, hcontext, hanswer, ?_, ?_, ?_, ?_⟩ <;> rintro rfl <;> cases hv
      · exact statusWord_toNat s
      · rfl
      · rw [BitVec.extractLsb'_toNat, Nat.shiftRight_zero]
      · rw [BitVec.extractLsb'_toNat, Nat.shiftRight_eq_div_pow]
        omega
    · omega
  · obtain ⟨-, -, -, -, -, -, hrdsr, -⟩ := mustBeZeroFieldsAreChecked
    exact hrdsr

end Sys2Proof.Proofs
end

section
/-! SUPPORT. The padding logic against `Pad` (40_stream_commands.md R105, R106): what FINISH compresses, after the
complete blocks of the message an open context holds, is the rest of the padded message. -/

namespace Sys2Proof.Machine

/-! ## Blocks after whole blocks -/

theorem blocksOf_append_block {m b : List Byte} (hm : m.length % 64 = 0) (hb : b.length = 64) :
    blocksOf (m ++ b) = blocksOf m ++ [b] := by
  have htail : messageTail m = [] := List.length_eq_zero_iff.1 (by rw [messageTail_length, hm])
  rw [blocksOf_append_of_eq (by omega), htail, List.nil_append]

/-- The part of a message in complete blocks: the bytes already compressed while it is open. -/
def completePart (m : List Byte) : List Byte := m.take (64 * (m.length / 64))

theorem completePart_append_messageTail (m : List Byte) : completePart m ++ messageTail m = m :=
  List.take_append_drop ..

theorem completePart_length_mod (m : List Byte) : (completePart m).length % 64 = 0 := by
  rw [completePart, List.length_take]
  omega

theorem blocksOf_completePart (m : List Byte) : blocksOf (completePart m) = blocksOf m := by
  have hlt : (completePart m).length % 64 + (messageTail m).length < 64 := by
    rw [completePart_length_mod, messageTail_length]
    omega
  rw [← blocksOf_append_of_lt hlt, completePart_append_messageTail]

/-- The last 64 bytes of a byte string, by their places counted from its end. -/
theorem getD_append_block (x : List Byte) {b : List Byte} (hb : b.length = 64) (a : Nat) :
    (x ++ b).getD ((x ++ b).length - 64 + a) 0 = b.getD a 0 := by
  have hplace : (x ++ b).length - 64 + a = x.length + a := by rw [List.length_append]; omega
  rw [hplace, List.getD_append_right _ _ _ _ (by omega), Nat.add_sub_cancel_left]

/-! ## The padded message, block by block -/

/-- The length field holds the message's length in bits (10_state.md R23). -/
theorem HoldsMessage.bitLength_eq {m : List Byte} {s : State} (h : HoldsMessage m s) :
    bitLength s = BitVec.ofNat 64 (8 * m.length) := by
  obtain ⟨-, -, -, hcount, -⟩ := h
  rw [bitLength, hcount, BitVec.ofNat_mul, BitVec.mul_comm]

/-- What FINISH marks in `BUF` is the message's tail, the mark and zero bytes. -/
theorem HoldsMessage.markedBytes_eq {m : List Byte} {s : State} (h : HoldsMessage m s) (z : Nat) :
    markedBytes s.buf (fillLevel s) z = messageTail m ++ [0x80] ++ List.replicate z 0x00 := by
  have hstaged : (List.range (fillLevel s)).map s.buf.read = messageTail m := by
    refine List.ext_getElem (by simp [h.fillLevel_eq]) fun a ha hb => ?_
    rw [List.getElem_map, List.getElem_range, h.read_eq (by simpa using hb), List.getD_eq_getElem _ _ hb]
  rw [markedBytes, hstaged]

theorem onePaddingBlock_length {s : State} (hn : fillLevel s ≤ 55) : (onePaddingBlock s).length = 64 := by
  rw [onePaddingBlock, List.length_append, markedBytes_length, be64_length]
  omega

@[simp] theorem lengthOnlyBlock_length (s : State) : (lengthOnlyBlock s).length = 64 := by
  simp [lengthOnlyBlock]

/-- With at most 55 bytes staged, `Pad` adds one block to the complete ones. -/
theorem HoldsMessage.pad_of_fillLevel_le {m : List Byte} {s : State} (h : HoldsMessage m s) (hn : fillLevel s ≤ 55) :
    pad m = completePart m ++ onePaddingBlock s := by
  have hfill := h.fillLevel_eq
  have hzeros : (119 - m.length % 64) % 64 = 55 - fillLevel s := by omega
  rw [onePaddingBlock, h.markedBytes_eq, h.bitLength_eq, pad, hzeros]
  simp only [← List.append_assoc, completePart_append_messageTail]

/-- With 56 bytes staged or more, `Pad` adds two: the marked one, and one for the length alone. -/
theorem HoldsMessage.pad_of_le_fillLevel {m : List Byte} {s : State} (h : HoldsMessage m s) (hn : 56 ≤ fillLevel s) :
    pad m = completePart m ++ markedBytes s.buf (fillLevel s) (63 - fillLevel s) ++ lengthOnlyBlock s := by
  have hfill := h.fillLevel_eq
  have hzeros : (119 - m.length % 64) % 64 = (63 - fillLevel s) + 56 := by omega
  rw [lengthOnlyBlock, h.markedBytes_eq, h.bitLength_eq, pad, hzeros, List.replicate_add]
  simp only [← List.append_assoc, completePart_append_messageTail]

/-! ## Closing the stream of a message -/

/-- FINISH leaves the message's digest, counts its padded blocks and leaves the last of them in `BUF`. -/
theorem HoldsMessage.closeStream_eq {m : List Byte} {s : State} (h : HoldsMessage m s) :
    (closeStream s).h = digestOf m ∧ (closeStream s).blocks = BitVec.ofNat 32 ((m.length + 9 + 63) / 64) ∧
      ∀ a < 64, (closeStream s).buf.read a = (pad m).getD ((pad m).length - 64 + a) 0 := by
  have hfill := h.fillLevel_eq
  have hwhole := completePart_length_mod m
  obtain ⟨-, hwf, -, -, hh, hblocks, -⟩ := id h
  by_cases hn : fillLevel s ≤ 55
  · obtain ⟨hclose, hcount, hread⟩ := closeStream_of_fillLevel_le hwf hn
    have hblock := onePaddingBlock_length hn
    have hpad := h.pad_of_fillLevel_le hn
    refine ⟨?_, ?_, fun a ha => ?_⟩
    · rw [digestOf, hpad, blocksOf_append_block hwhole hblock, blocksOf_completePart, hashBlocks_append, ← hh, hclose]
      rfl
    · rw [hcount, hblocks, show (m.length + 9 + 63) / 64 = m.length / 64 + 1 by omega, BitVec.ofNat_add]
    · rw [hread a ha, hpad, getD_append_block _ hblock]
  · have hfull := fillLevel_lt s
    obtain ⟨hclose, hcount, hread⟩ := closeStream_of_le_fillLevel hwf (by omega)
    have hblock : (markedBytes s.buf (fillLevel s) (63 - fillLevel s)).length = 64 := by
      rw [markedBytes_length]
      omega
    have hpad := h.pad_of_le_fillLevel (by omega)
    refine ⟨?_, ?_, fun a ha => ?_⟩
    · rw [digestOf, hpad, blocksOf_append_block (by rw [List.length_append]; omega) (lengthOnlyBlock_length s),
        blocksOf_append_block hwhole hblock, blocksOf_completePart, hashBlocks_append, hashBlocks_append, ← hh, hclose]
      rfl
    · rw [hcount, hblocks, show (m.length + 9 + 63) / 64 = m.length / 64 + 2 by omega, BitVec.ofNat_add]
    · rw [hread a ha, hpad, getD_append_block _ (lengthOnlyBlock_length s)]

end Sys2Proof.Machine
end

section
/-! SUPPORT. The one-shot commands HASHT and HASHB (42_oneshot_commands.md R130, R131): INIT makes any context hold the
empty message, the payload makes it the message held, and FINISH closes that. -/

namespace Sys2Proof

/-! ## The words of HASHT and HASHB -/

/-- Every word of opcode 6 is HASHT: neither its flags nor its `ARG` can be bad (30_encoding.md R73, R75). -/
theorem decode_hasht_of_masked {w : CmdWord} (h : w &&& 0xF0000000 = 0x60000000) :
    decode w = .ok (.hasht (w.getLsbD 24) (argField w).toNat) := by
  have hmask : (0xF0000000 : CmdWord) = cmdWord (.allOnes 4) 0 0 := by decide
  have hmatch : (0x60000000 : CmdWord) = cmdWord 6 0 0 := by decide
  rw [hmask, hmatch, and_cmdWord_eq_iff, BitVec.and_allOnes] at h
  obtain ⟨hop, -, -⟩ := h
  rw [decode_of_opField_six hop, getLsbD_zero_flgField]

theorem decode_hashb_of_masked {w : CmdWord} (h : w &&& 0xFF000000 = 0x70000000) :
    decode w = .ok (.hashb (argField w).toNat) := by
  have hmask : (0xFF000000 : CmdWord) = cmdWord (.allOnes 4) (.allOnes 4) 0 := by decide
  have hmatch : (0x70000000 : CmdWord) = cmdWord 7 0 0 := by decide
  rw [hmask, hmatch, and_cmdWord_eq_iff, BitVec.and_allOnes, BitVec.and_allOnes] at h
  obtain ⟨hop, hflg, -⟩ := h
  exact decode_eq_ok_iff.2 ⟨hop, hflg, rfl⟩

end Sys2Proof

namespace Sys2Proof.Machine

/-! ## The finished message -/

/-- A finished context of the message `m`, no refusal recorded: its digest, its length, the number of its padded blocks
and the last of these in `BUF` (42_oneshot_commands.md R130, R131). -/
def HoldsDigest (uc : Bool) (m : List Byte) (t : State) : Prop :=
  t.h = digestOf m ∧ t.phase = .final ∧ t.count.toNat = m.length ∧ t.uc = uc ∧ t.err = 0 ∧
    t.blocks.toNat = (m.length + 9 + 63) / 64 ∧
    ∀ a < 64, t.buf.read a = (pad m).getD ((pad m).length - 64 + a) 0

/-- A response writes nothing of the context. -/
theorem HoldsDigest.respond {uc : Bool} {m : List Byte} {t : State} (h : HoldsDigest uc m t) (c : Code)
    (data : List Byte) : HoldsDigest uc m (respond c data t) := h

/-- Whatever the context, INIT and the payload make it hold the payload as its message. -/
theorem holdsMessage_absorbAll_initContext (uc : Bool) {p : List Byte} (s : State) (h : p.length < 2 ^ 61) :
    HoldsMessage p (absorbAll p (initContext uc s)) :=
  (holdsMessage_initContext uc s).of_absorbAll p (by rwa [List.length_nil, Nat.zero_add])

/-- The state writes of a one-shot command finish its payload as a message, whatever the context before. -/
theorem holdsDigest_hashPayload (uc : Bool) {p : List Byte} (s : State) (h : p.length < 2 ^ 24) :
    HoldsDigest uc p (hashPayload uc p s) := by
  have hheld := holdsMessage_absorbAll_initContext uc s (show p.length < 2 ^ 61 by omega)
  obtain ⟨hdigest, hblocks, hread⟩ := hheld.closeStream_eq
  refine ⟨hdigest, hashPayload_phase uc p s, ?_, hashPayload_uc uc p s, hashPayload_err uc p s, ?_, hread⟩
  · rw [hashPayload, closeStream_count, hheld.count_toNat]
  · rw [hashPayload, hblocks, BitVec.toNat_ofNat]
    omega

/-! ## What the one-shot commands answer -/

theorem exec_hasht_of_payload (uc : Bool) {len : Nat} {s : State} (hlt : len < 2 ^ 24) (hl : len ≤ s.din.length) :
    ∃ t, exec (.hasht uc len) s = .next t ∧ Answered len .ok (hexText t.h uc) s t ∧
      HoldsDigest uc (s.din.take len) t := by
  obtain ⟨t, ht, ha⟩ := exec_next_of_payload (.hasht uc len) s hl
  refine ⟨t, ht, ?_⟩
  cases ha
  refine ⟨by simp [Answered], (holdsDigest_hashPayload uc _ ?_).respond ..⟩
  rwa [List.length_take_of_le hl]

theorem exec_hashb_of_payload {len : Nat} {s : State} (hlt : len < 2 ^ 24) (hl : len ≤ s.din.length) :
    ∃ t, exec (.hashb len) s = .next t ∧ Answered len .ok (digestBytes t.h) s t ∧
      HoldsDigest false (s.din.take len) t := by
  obtain ⟨t, ht, ha⟩ := exec_next_of_payload (.hashb len) s hl
  refine ⟨t, ht, ?_⟩
  cases ha
  refine ⟨by simp [Answered], (holdsDigest_hashPayload false _ ?_).respond ..⟩
  rwa [List.length_take_of_le hl]

end Sys2Proof.Machine

namespace Sys2Proof.Proofs
open Sys2Proof.Machine

/-- Settles O37: INIT, the payload and FINISH leave the payload's digest, and opcode 6 has no bad field. -/
theorem hashtCommand : Obligations.HashtCommand := by
  unfold Obligations.HashtCommand
  refine ⟨fun uc len s hlt hl => ?_, fun w => decode_hasht_of_masked⟩
  obtain ⟨t, ht, hanswer, hdigest⟩ := exec_hasht_of_payload uc hlt hl
  rw [HoldsDigest, List.length_take_of_le hl] at hdigest
  exact ⟨t, ht, hanswer, hdigest⟩

/-- Settles O38: as HASHT with `UC = 0`, the digest's bytes for its text, and `FLG` checked. -/
theorem hashbCommand : Obligations.HashbCommand := by
  unfold Obligations.HashbCommand
  refine ⟨fun len s hlt hl => ?_, fun w => decode_hashb_of_masked, ?_⟩
  · obtain ⟨t, ht, hanswer, hdigest⟩ := exec_hashb_of_payload hlt hl
    rw [HoldsDigest, List.length_take_of_le hl] at hdigest
    exact ⟨t, ht, hanswer, hdigest⟩
  · obtain ⟨-, -, -, -, -, hhashb, -⟩ := mustBeZeroFieldsAreChecked
    exact hhashb

end Sys2Proof.Proofs
end

section
/-! SUPPORT. The compression round (43_compression_round.md): the recurrence of the schedule, the round functions and
constants by index range, and the working variables after each round. -/

namespace Sys2Proof.Machine

/-! ## The schedule -/

theorem schedule_length {m : List Byte} (h : m.length = 64) : (schedule m).length = 80 := by
  simp [schedule, expand_length, loadWords_length, h, Config.expandedWords]

/-- The first word `Expand` adds is the next schedule word of the words it starts from. -/
theorem expand_succ_getD_length (n : Nat) (w : List Word) :
    (expand (n + 1) w).getD w.length 0 = nextScheduleWord w := by
  rw [expand, expand_getD_of_lt _ _ _ (by simp), List.getD_append_right _ _ _ _ le_rfl, Nat.sub_self,
    List.getD_cons_zero]

/-- Each word `Expand` adds follows the recurrence of R142 over its whole result: later words leave the ones it was
built from as they were. -/
theorem expand_getD_of_le (n : Nat) (w : List Word) (i : Nat) (h16 : 16 ≤ w.length) (hlo : w.length ≤ i)
    (hhi : i < w.length + n) :
    (expand n w).getD i 0 = rotl ((expand n w).getD (i - 3) 0 ^^^ (expand n w).getD (i - 8) 0 ^^^
      (expand n w).getD (i - 14) 0 ^^^ (expand n w).getD (i - 16) 0) 1 := by
  induction n generalizing w with
  | zero => omega
  | succ n ih =>
    rcases hlo.eq_or_lt with rfl | hlt
    · have hkept (d : Nat) (hd : 0 < d) : (expand (n + 1) w).getD (w.length - d) 0 = w.getD (w.length - d) 0 :=
        expand_getD_of_lt _ _ _ (by omega)
      rw [expand_succ_getD_length, nextScheduleWord, hkept 3 (by decide), hkept 8 (by decide), hkept 14 (by decide),
        hkept 16 (by decide)]
    · have hlen : (w ++ [nextScheduleWord w]).length = w.length + 1 := List.length_append
      exact ih _ (by omega) (by omega) (by omega)

theorem schedule_getD_of_lt {m : List Byte} (h : m.length = 64) {i : Nat} (hi : i < 16) :
    (schedule m).getD i 0 = (loadWords m).getD i 0 :=
  expand_getD_of_lt _ _ _ (by rwa [loadWords_length, h])

theorem schedule_getD_of_le {m : List Byte} (h : m.length = 64) {i : Nat} (hlo : 16 ≤ i) (hhi : i < 80) :
    (schedule m).getD i 0 = rotl ((schedule m).getD (i - 3) 0 ^^^ (schedule m).getD (i - 8) 0 ^^^
      (schedule m).getD (i - 14) 0 ^^^ (schedule m).getD (i - 16) 0) 1 := by
  have hlen : (loadWords m).length = 16 := by rw [loadWords_length, h]
  exact expand_getD_of_le _ _ _ hlen.ge (hlen.trans_le hlo) (by rwa [hlen])

/-- The zero block has the zero schedule: its words are zero, and the recurrence makes zero of zeros. -/
theorem schedule_replicate_zero_getD (i : Nat) (hi : i < 80) : (schedule (List.replicate 64 0)).getD i 0 = 0 := by
  have hlen : (List.replicate 64 (0 : Byte)).length = 64 := List.length_replicate
  induction i using Nat.strongRecOn with
  | ind i ih =>
    rcases lt_or_ge i 16 with hlt | hge
    · have hwords : loadWords (List.replicate 64 0) = List.replicate 16 0 := rfl
      rw [schedule_getD_of_lt hlen hlt, hwords, List.getD_replicate _ hlt]
    · rw [schedule_getD_of_le hlen hge hi, ih (i - 3) (by omega) (by omega), ih (i - 8) (by omega) (by omega),
        ih (i - 14) (by omega) (by omega), ih (i - 16) (by omega) (by omega)]
      decide

/-! ## `FK` by index range (43_compression_round.md R145) -/

theorem roundFK_of_lt_20 {t : Nat} (h : t < 20) (b c d : Word) :
    roundF t b c d = ch b c d ∧ roundK t = 0x5A827999 := by
  simp [roundF, roundK, h]

theorem roundFK_of_lt_40 {t : Nat} (hlo : 20 ≤ t) (hhi : t < 40) (b c d : Word) :
    roundF t b c d = parity b c d ∧ roundK t = 0x6ED9EBA1 := by
  simp [roundF, roundK, hlo.not_gt, hhi]

theorem roundFK_of_lt_60 {t : Nat} (hlo : 40 ≤ t) (hhi : t < 60) (b c d : Word) :
    roundF t b c d = maj b c d ∧ roundK t = 0x8F1BBCDC := by
  simp [roundF, roundK, show ¬t < 20 by omega, hlo.not_gt, hhi]

theorem roundFK_of_ge_60 {t : Nat} (h : 60 ≤ t) (b c d : Word) :
    roundF t b c d = parity b c d ∧ roundK t = 0xCA62C1D6 := by
  simp [roundF, roundK, show ¬t < 20 by omega, show ¬t < 40 by omega, h.not_gt]

/-! ## The working variables after each round -/

/-- The working variables after the first `t` rounds of `Compress(H, M)`. -/
def varsAfter (h : Accumulator) (m : List Byte) (t : Nat) : WorkVars :=
  rounds 0 (loadVars h) ((schedule m).take t)

theorem varsAfter_zero (h : Accumulator) (m : List Byte) : varsAfter h m 0 = loadVars h := by
  rw [varsAfter, List.take_zero, rounds]

/-- Round `t` takes the working variables from index `t` to index `t + 1`, with the schedule word `W[t]`. -/
theorem varsAfter_succ (h : Accumulator) {m : List Byte} (hm : m.length = 64) {t : Nat} (ht : t < 80) :
    varsAfter h m (t + 1) = roundStep t (varsAfter h m t) ((schedule m).getD t 0) := by
  have hlt : t < (schedule m).length := by rwa [schedule_length hm]
  rw [varsAfter, ← List.take_append_getElem hlt, rounds_append, List.length_take_of_le hlt.le, Nat.zero_add,
    List.getD_eq_getElem _ _ hlt, varsAfter]

/-- `Compress` adds the working variables after all 80 rounds back to the accumulator. -/
theorem compress_eq_addBack_varsAfter (h : Accumulator) {m : List Byte} (hm : m.length = 64) :
    compress h m = addBack h (varsAfter h m 80) := by
  rw [varsAfter, List.take_of_length_le (schedule_length hm).le, compress]

end Sys2Proof.Machine

namespace Sys2Proof.Proofs
open Sys2Proof.Machine

/-- Settles O17: the block's words stay, `Expand` adds the rest by the recurrence, and zeros give zeros. -/
theorem scheduleRecurrence : Obligations.ScheduleRecurrence := by
  unfold Obligations.ScheduleRecurrence
  refine ⟨fun M hM => ⟨schedule_length hM, fun i => schedule_getD_of_lt hM, fun i => schedule_getD_of_le hM⟩,
    schedule_replicate_zero_getD, ?_⟩
  decide

/-- Settles O18: the sequences are the fields of the working variables after each round. -/
theorem compressIsTheEightyRounds : Obligations.CompressIsTheEightyRounds := by
  unfold Obligations.CompressIsTheEightyRounds
  intro h M hM
  refine ⟨fun t => (varsAfter h M t).a, fun t => (varsAfter h M t).b, fun t => (varsAfter h M t).c,
    fun t => (varsAfter h M t).d, fun t => (varsAfter h M t).e, ?_, ?_, ?_⟩
  · simp [varsAfter_zero, loadVars]
  · intro t ht
    refine ⟨roundF t _ _ _, roundK t, fun h20 => roundFK_of_lt_20 h20 .., fun h20 h40 => roundFK_of_lt_40 h20 h40 ..,
      fun h40 h60 => roundFK_of_lt_60 h40 h60 .., fun h60 => roundFK_of_ge_60 h60 .., ?_⟩
    simp [varsAfter_succ h hM ht, roundStep]
  · rw [compress_eq_addBack_varsAfter h hM, addBack]

end Sys2Proof.Proofs
end

section
/-! SUPPORT. Refusals (60_exceptions.md): the code of a command's response as a function of the command, `PHASE` and
`COUNT` (`commandCode`), and that every answer but `OK` has the whole effect of a refusal and no other. -/

namespace Sys2Proof.Machine

/-! ## The code of a response -/

/-- The phase in which a command is refused with `PHASE`, if there is one: the phase table (60_exceptions.md R172). -/
def refusedPhase : Instr → Option Phase
  | .update _ => some .final
  | .finish => some .final
  | .rddig => some .opened
  | .rdtext => some .opened
  | .init _ => none
  | .hasht _ _ => none
  | .hashb _ => none
  | .rdsr _ => none

/-- The code of a command in a phase that allows it, `count` being `COUNT`: UPDATE may still reach 2^61 bytes
(60_exceptions.md R173), RDSR may name no value (10_state.md R35). -/
def allowedCode (count : Nat) : Instr → Code
  | .update len => if count + len < 2 ^ 61 then .ok else .overflow
  | .rdsr sel => if sel ≤ 3 then .ok else .illegal
  | _ => .ok

/-- The code of a command's response: the phase table goes before the length (60_exceptions.md R174). -/
def commandCode (i : Instr) (s : State) : Code :=
  if refusedPhase i = some s.phase then .phase else allowedCode s.count.toNat i

theorem allowedCode_ne_phase (count : Nat) (i : Instr) : allowedCode count i ≠ .phase := by
  cases i with
  | update len => simp only [allowedCode]; split <;> decide
  | rdsr sel => simp only [allowedCode]; split <;> decide
  | _ => simp [allowedCode]

/-- The code is `PHASE` exactly where the phase table says so. -/
theorem commandCode_eq_phase_iff {i : Instr} {s : State} :
    commandCode i s = .phase ↔ refusedPhase i = some s.phase := by
  rw [commandCode]
  split <;> simp [allowedCode_ne_phase, *]

theorem commandCode_of_allowed {i : Instr} {s : State} (h : refusedPhase i ≠ some s.phase) :
    commandCode i s = allowedCode s.count.toNat i := if_neg h

/-- An open stream gives UPDATE a code by `COUNT + LEN` alone (60_exceptions.md R173). -/
theorem commandCode_update_of_opened (len : Nat) {s : State} (hp : s.phase = .opened) :
    commandCode (.update len) s = if s.count.toNat + len < 2 ^ 61 then .ok else .overflow :=
  commandCode_of_allowed (by simp [refusedPhase, hp])

theorem commandCode_update_eq_overflow_iff (len : Nat) {s : State} (hp : s.phase = .opened) :
    commandCode (.update len) s = .overflow ↔ 2 ^ 61 ≤ s.count.toNat + len := by
  rw [commandCode_update_of_opened len hp, ← Nat.not_lt]
  split <;> simp only [*, not_true, not_false_eq_true, reduceCtorEq]

theorem commandCode_update_eq_ok_iff (len : Nat) {s : State} (hp : s.phase = .opened) :
    commandCode (.update len) s = .ok ↔ s.count.toNat + len < 2 ^ 61 := by
  rw [commandCode_update_of_opened len hp]
  split <;> simp only [*, reduceCtorEq]

/-! ## What a response says of the state -/

/-- `t` holds one response more than `s`, of code `c`; unless `c` is `OK`, the step from `s` to `t` is a refusal that
takes `n` payload bytes, and nothing else (60_exceptions.md R175). -/
def AnsweredWith (n : Nat) (c : Code) (s t : State) : Prop :=
  ∃ r, t.rsp = s.rsp ++ [r] ∧ r.code = c ∧ (r.code ≠ .ok → Refused n r.code s t)

theorem AnsweredWith.of_refusedState (n : Nat) (c : Code) (s : State) :
    AnsweredWith n c s (refusedState c (afterPayload n s)) :=
  ⟨⟨c, []⟩, refusedState_rsp c _, rfl, fun _ => refused_refusedState n c s⟩

theorem AnsweredWith.of_respond (n : Nat) {s u : State} (data : List Byte) (hrsp : u.rsp = s.rsp) :
    AnsweredWith n .ok s (respond .ok data u) :=
  ⟨⟨.ok, data⟩, by rw [respond_rsp, hrsp], rfl, fun hc => absurd rfl hc⟩

/-- Every answer of a command has the code `commandCode`, and is a refusal unless that is `OK`. -/
theorem CommandAnswer.answeredWith {i : Instr} {s t : State} (h : CommandAnswer i s t) :
    AnsweredWith i.payloadLen (commandCode i s) s t := by
  cases h with
  | updateFinal len _ hp | finishFinal _ hp | rddigOpened _ hp | rdtextOpened _ hp =>
    rw [commandCode_eq_phase_iff.2 (by rw [hp]; rfl)]
    exact .of_refusedState _ .phase s
  | updateOverflow len _ hp _ hc =>
    rw [(commandCode_update_eq_overflow_iff len hp).2 hc]
    exact .of_refusedState len .overflow s
  | rdsrIllegal sel _ hs =>
    have hcode : commandCode (.rdsr sel) s = .illegal := if_neg (Nat.not_le.2 hs)
    rw [hcode]
    exact .of_refusedState 0 .illegal s
  | update len _ hp _ hc =>
    rw [(commandCode_update_eq_ok_iff len hp).2 hc]
    exact .of_respond len [] (by simp)
  | rdsr sel _ v hs =>
    have hcode : commandCode (.rdsr sel) s = .ok := if_pos hs
    rw [hcode]
    exact .of_respond 0 _ rfl
  | finish _ hp | rddig _ hp | rdtext _ hp =>
    rw [commandCode_of_allowed (by rw [hp]; decide)]
    exact .of_respond 0 _ (by simp)
  | init | hasht | hashb => exact .of_respond _ _ (by simp)

/-- A command with its payload there is answered with the code `commandCode`. -/
theorem exec_answeredWith (i : Instr) {s : State} (hl : i.payloadLen ≤ s.din.length) :
    ∃ t, exec i s = .next t ∧ AnsweredWith i.payloadLen (commandCode i s) s t := by
  obtain ⟨t, ht, ha⟩ := exec_next_of_payload i s hl
  exact ⟨t, ht, ha.answeredWith⟩

/-- UPDATE of no bytes, below the limit, is a response and nothing else (60_exceptions.md R173). -/
theorem exec_update_zero {s : State} (hp : s.phase = .opened) (hc : s.count.toNat < 2 ^ 61) :
    exec (.update 0) s = .next (respond .ok [] s) :=
  exec_update_of_lt hp (Nat.zero_le _) hc

/-! ## The answer to a command word -/

/-- A word that decodes runs its command, the word taken off `CMD` (30_encoding.md R80). -/
theorem step_of_decode_ok {s : State} {w : CmdWord} {rest : List HostInput} {i : Instr}
    (hin : s.inputs = .command w :: rest) (hd : decode w = .ok i) : step s = exec i { s with inputs := rest } := by
  rw [step_of_command hin, runWord_of_decode_ok hd]

/-- Every step that takes a command word is answered, and is a refusal unless the code is `OK`, whether the word decodes
or not. -/
theorem step_command_answeredWith {s t : State} {w : CmdWord} {rest : List HostInput}
    (hin : s.inputs = .command w :: rest) (h : step s = .next t) :
    ∃ c, AnsweredWith (payloadLen w) c { s with inputs := rest } t := by
  cases hd : decode w with
  | ok i =>
    rw [step_of_decode_ok hin hd] at h
    rw [← payloadLen_of_decode_ok hd]
    exact ⟨_, (exec_next h).answeredWith⟩
  | error e =>
    obtain ⟨hl, -⟩ := step_takes_payload hin h
    rw [step_of_command hin, runWord_of_decode_error hd,
      refuseIllegalWord_of_le (s := { s with inputs := rest }) hl] at h
    exact ⟨.illegal, Host.Outcome.next.inj h ▸ .of_refusedState (payloadLen w) .illegal { s with inputs := rest }⟩

end Sys2Proof.Machine

namespace Sys2Proof.Proofs
open Sys2Proof.Machine

/-- Settles O41: the code is `PHASE` exactly where `refusedPhase` is the phase found. -/
theorem phaseTable : Obligations.PhaseTable := by
  unfold Obligations.PhaseTable
  intro i s hl
  obtain ⟨t, ht, r, hrsp, hcode, hrefused⟩ := exec_answeredWith i hl
  refine ⟨t, r, ht, hrsp, ?_, ?_⟩
  · rw [hcode, commandCode_eq_phase_iff]
    cases i <;> simp [refusedPhase, eq_comm]
  · exact fun hphase => hphase ▸ hrefused (by simp [hphase])

/-- Settles O42: in an open stream the code of UPDATE is decided by `COUNT + LEN`, and no bytes are none absorbed. -/
theorem overflowRefusal : Obligations.OverflowRefusal := by
  unfold Obligations.OverflowRefusal
  constructor
  · intro len s hp hl
    obtain ⟨t, ht, ha⟩ := exec_next_of_payload (.update len) s hl
    obtain ⟨r, hrsp, hcode, hrefused⟩ := ha.answeredWith
    refine ⟨t, r, ht, hrsp, ha.phase_eq.trans hp, ?_, ?_, ?_⟩
    · rw [hcode, commandCode_update_eq_overflow_iff len hp]
    · rw [hcode, commandCode_update_eq_ok_iff len hp]
    · exact fun hoverflow => hoverflow ▸ hrefused (by simp [hoverflow])
  · intro s hp hcount
    exact ⟨_, exec_update_zero hp (by rw [hcount]; decide), respond_keeps_context .ok [] s⟩

/-- Settles O43: a word is decoded before its command looks at `PHASE`, and UPDATE looks at `PHASE` before `COUNT`. -/
theorem refusalPriority : Obligations.RefusalPriority := by
  unfold Obligations.RefusalPriority
  refine ⟨fun s w rest e hin hd => step_refused_of_decode_error hin ⟨e, hd⟩, ?_, ?_⟩
  · intro s w rest len hin hd hl hp
    rw [step_of_decode_ok hin hd]
    exact ⟨_, exec_update_of_final hp hl, refused_refusedState len .phase { s with inputs := rest }⟩
  · intro s w rest len hin hd hl hp hc
    rw [step_of_decode_ok hin hd]
    exact ⟨_, exec_update_of_overflow hp hl hc, refused_refusedState len .overflow { s with inputs := rest }⟩

/-- Settles O44: every step that takes a command word is `OK` or a refusal with no other effect. -/
theorem refusalsArePrecise : Obligations.RefusalsArePrecise := by
  unfold Obligations.RefusalsArePrecise
  intro s t w rest hin h
  obtain ⟨_, r, hrsp, -, hrefused⟩ := step_command_answeredWith hin h
  exact ⟨r, hrsp, hrefused⟩

end Sys2Proof.Proofs
end

section
/-! SUPPORT. Decode and encode are inverse (30_encoding.md R80, R81), and the steps of the engine that take one input:
a decoded command, a reset event, nothing, or a command whose payload is not all there. -/

namespace Sys2Proof

/-! ## A command's word -/

/-- `Decode` reads the operands the encoder wrote (30_encoding.md R80, R81). -/
theorem decode_encode {i : Instr} (h : i.wellFormed = true) : decode (encode i) = .ok i := by
  rw [decode_eq_ok_iff]
  cases i with
  | init uc => exact ⟨opField_cmdWord .., argField_cmdWord .., by rw [encode, flgField_cmdWord, flagsOf_bit]⟩
  | finish | rddig | rdtext => simp [DecodeAnswer, encode]
  | update len | hashb len =>
    have hlen : len < 2 ^ 24 := of_decide_eq_true h
    simpa [DecodeAnswer, encode] using (Nat.mod_eq_of_lt hlen).symm
  | hasht uc len =>
    have hlen : len < 2 ^ 24 := of_decide_eq_true h
    refine ⟨opField_cmdWord .., by rw [encode, flgField_cmdWord, flagsOf_bit], ?_⟩
    rw [encode, argField_cmdWord, BitVec.toNat_ofNat, Nat.mod_eq_of_lt hlen]
  | rdsr sel =>
    have hsel : sel ≤ 3 := of_decide_eq_true h
    have hmod : sel % 2 ^ 24 = sel := Nat.mod_eq_of_lt (by omega)
    simp only [Nat.reducePow] at hmod
    simp [DecodeAnswer, encode, hmod, hsel]

/-- The four bytes of a word, most significant first, join to the word (20_memory.md R56). -/
theorem append_four_bytes (w : CmdWord) :
    (w.extractLsb' 24 8 ++ w.extractLsb' 16 8 ++ w.extractLsb' 8 8 ++ w.extractLsb' 0 8 : BitVec 32) = w := by
  rw [BitVec.extractLsb'_append_extractLsb'_eq_extractLsb' (by rfl),
    BitVec.extractLsb'_append_extractLsb'_eq_extractLsb' (by rfl),
    BitVec.extractLsb'_append_extractLsb'_eq_extractLsb' (by rfl)]
  exact BitVec.extractLsb'_eq_self

/-- Over a byte-wide path a command decodes as on `CMD`. -/
theorem decodeBytes_encodeBytes (i : Instr) : decodeBytes (encodeBytes i) = decode (encode i) :=
  congrArg decode (append_four_bytes (encode i))

/-- A decoded command's operands are those a word can carry (30_encoding.md R76, R77). -/
theorem wellFormed_of_decode_ok {w : CmdWord} {i : Instr} (h : decode w = .ok i) : i.wellFormed = true := by
  have hfields := decode_ok h
  cases i with
  | update len | hasht uc len | hashb len =>
    obtain ⟨-, -, rfl⟩ := hfields
    exact decide_eq_true (argField w).isLt
  | rdsr sel =>
    obtain ⟨-, -, hsel, rfl⟩ := hfields
    exact decide_eq_true hsel
  | init uc | finish | rddig | rdtext => rfl

theorem flagsOf_getLsbD_zero (flg : BitVec 4) : flagsOf (flg.getLsbD 0) = flg &&& 1 := by
  revert flg
  decide

/-- A word with its ignored flag bits `FLG[3:1]` made 0 (30_encoding.md R75). -/
theorem and_ignoredFlags (w : CmdWord) :
    w &&& 0xF1FFFFFF = cmdWord (opField w) (flgField w &&& 1) (argField w) := by
  have hmask : (0xF1FFFFFF : CmdWord) = cmdWord (.allOnes 4) 1 (.allOnes 24) := by decide
  rw [hmask]
  conv_lhs => rw [← cmdWord_fields w, cmdWord_and, BitVec.and_allOnes, BitVec.and_allOnes]

/-- The encoder gives a decoded word back, but for the flag bits `Decode` ignores (30_encoding.md R75). -/
theorem encode_of_decode_ok {w : CmdWord} {i : Instr} (h : decode w = .ok i) :
    encode i = if opField w = 1 ∨ opField w = 6 then w &&& 0xF1FFFFFF else w := by
  have hfields := decode_ok h
  cases i with
  | init uc =>
    obtain ⟨hop, harg, rfl⟩ := hfields
    rw [if_pos (.inl hop), and_ignoredFlags, hop, harg, encode, flagsOf_getLsbD_zero]
  | hasht uc len =>
    obtain ⟨hop, rfl, rfl⟩ := hfields
    rw [if_pos (.inr hop), and_ignoredFlags, hop, encode, flagsOf_getLsbD_zero, BitVec.ofNat_toNat,
      BitVec.setWidth_eq]
  | update len | hashb len =>
    obtain ⟨hop, hflg, rfl⟩ := hfields
    rw [if_neg (by simp [hop]), ← cmdWord_fields w, hop, hflg, encode, argField_cmdWord, BitVec.ofNat_toNat,
      BitVec.setWidth_eq]
  | finish | rddig | rdtext =>
    obtain ⟨hop, hflg, harg⟩ := hfields
    rw [if_neg (by simp [hop]), ← cmdWord_fields w, hop, hflg, harg, encode]
  | rdsr sel =>
    obtain ⟨hop, hflg, -, rfl⟩ := hfields
    rw [if_neg (by simp [hop]), ← cmdWord_fields w, hop, hflg, encode, argField_cmdWord, BitVec.ofNat_toNat,
      BitVec.setWidth_eq]

end Sys2Proof

namespace Sys2Proof.Machine

/-! ## One step of each kind -/

/-- A table row's word is offered with its payload, which the step's command then finds (log 4). -/
theorem step_withFetchWord {nbits w : Nat} {i : Instr} (h : decodeTableWord nbits w = some i) (s : State) :
    step (s.withFetchWord nbits w) = exec i { s with din := List.replicate i.payloadLen 0 ++ s.din } := by
  have hd : decode (BitVec.ofNat 32 w) = .ok i := by
    rw [decodeTableWord] at h
    split at h
    · cases hw : decode (BitVec.ofNat 32 w) with
      | ok j =>
        rw [hw] at h
        exact congrArg Except.ok (Option.some.inj h)
      | error e =>
        rw [hw] at h
        cases h
    · cases h
  have hin : (s.withFetchWord nbits w).inputs = .command (BitVec.ofNat 32 w) :: s.inputs := rfl
  rw [step_of_decode_ok hin hd, payloadLen_of_decode_ok hd]
  rfl

theorem isInitState_initContext (uc : Bool) (s : State) : IsInitState uc (initContext uc s) := by
  simp [IsInitState, Accumulator.initial]

/-- A command whose payload is not all there has no step (20_memory.md R68). -/
theorem exec_of_starved {i : Instr} {s : State} (h : s.din.length < i.payloadLen) :
    exec i s = .fault .payloadStarved := by
  cases i with
  | update len =>
    rw [exec, execUpdate]
    exact withPayload_of_lt h
  | hasht uc len =>
    rw [exec, execHasht]
    exact withPayload_of_lt h
  | hashb len =>
    rw [exec, execHashb]
    exact withPayload_of_lt h
  | init uc | finish | rddig | rdtext | rdsr sel => exact absurd h (Nat.not_lt_zero _)

/-- A command word whose payload is not all there stops the machine (20_memory.md R68). -/
theorem step_of_starved {s : State} {w : CmdWord} {rest : List HostInput} (hin : s.inputs = .command w :: rest)
    (hl : s.din.length < payloadLen w) : step s = .fault .payloadStarved := by
  rw [step_of_command hin]
  cases hd : decode w with
  | error e =>
    rw [runWord_of_decode_error hd]
    exact withPayload_of_lt hl
  | ok i =>
    rw [runWord_of_decode_ok hd]
    exact exec_of_starved (by rwa [payloadLen_of_decode_ok hd])

/-- A step has a next state, or its command is starved of payload (20_memory.md R68). -/
theorem step_next_or_starved (s : State) :
    (∃ t, step s = .next t) ∨ (step s = .fault .payloadStarved ∧
      ∃ w rest, s.inputs = .command w :: rest ∧ s.din.length < payloadLen w) := by
  match hin : s.inputs with
  | [] => exact .inl ⟨s, step_of_inputs_nil hin⟩
  | .reset :: rest => exact .inl ⟨_, step_of_reset hin⟩
  | .command w :: rest =>
    rcases Nat.lt_or_ge s.din.length (payloadLen w) with hlt | hle
    · exact .inr ⟨step_of_starved hin hlt, w, rest, rfl, hlt⟩
    · exact .inl (step_next_of_payload hin hle)

end Sys2Proof.Machine

namespace Sys2Proof.Proofs
open Sys2Proof.Machine

/-- Settles O1: the encoder's fields are the ones `Decode` asks of the command. -/
theorem decodeOfEncodeIsTheCommand : Obligations.DecodeOfEncodeIsTheCommand := by
  unfold Obligations.DecodeOfEncodeIsTheCommand
  intro i hwf
  have hd := decode_encode hwf
  exact ⟨hd, (decodeBytes_encodeBytes i).trans hd, (payloadLen_of_decode_ok hd).symm⟩

/-- Settles O2: a decoded word's fields are the command's, the ignored flag bits apart. -/
theorem encodeOfDecodeIsTheWord : Obligations.EncodeOfDecodeIsTheWord := by
  unfold Obligations.EncodeOfDecodeIsTheWord
  exact fun w i hd => ⟨wellFormed_of_decode_ok hd, payloadLen_of_decode_ok hd, encode_of_decode_ok hd⟩

/-- Settles O7: the fields of each listed word meet, or fail, its row's conditions. -/
theorem listedWordsDecode : Obligations.ListedWordsDecode := by
  unfold Obligations.ListedWordsDecode
  refine ⟨?_, ?_, ?_, ?_, ?_, ?_, ?_, ?_, ?_⟩ <;> decide

/-- Settles O8: the word decoded is the one taken off `CMD`, the table row's word included. -/
theorem stepRunsTheDecodedCommand : Obligations.StepRunsTheDecodedCommand := by
  unfold Obligations.StepRunsTheDecodedCommand
  exact ⟨fun s w rest i hin hd => ⟨wellFormed_of_decode_ok hd, step_of_decode_ok hin hd⟩,
    fun s nbits w i h => step_withFetchWord h s⟩

/-- Settles O9: a reset event makes the context `InitState(0)`, as INIT 0 does, and touches no port. -/
theorem resetGivesInitStateZero : Obligations.ResetGivesInitStateZero := by
  unfold Obligations.ResetGivesInitStateZero
  refine ⟨fun s rest hin => ⟨_, step_of_reset hin, isInitState_initContext false _, rfl, rfl, ?_⟩,
    isInitState_initContext false State.reset⟩
  exact ⟨respond .ok [] (initContext false s), rfl, by simp [SameContext, SameButErr]⟩

/-- Settles O10: the branch of `step` with no input. -/
theorem idleStepHoldsTheState : Obligations.IdleStepHoldsTheState := by
  unfold Obligations.IdleStepHoldsTheState
  exact fun s => step_of_inputs_nil

/-- Settles O11: a step that has no next state is starved, and a starved one has none. -/
theorem stepStopsOnlyWhenStarved : Obligations.StepStopsOnlyWhenStarved := by
  unfold Obligations.StepStopsOnlyWhenStarved
  intro s
  rcases step_next_or_starved s with ⟨t, ht⟩ | ⟨hs, w, rest, hin, hlt⟩
  · refine ⟨fun r => by simp [ht], fun f => ⟨fun h => by simp [ht] at h, ?_⟩⟩
    rintro ⟨-, w, rest, hin, hlt⟩
    rw [step_of_starved hin hlt] at ht
    cases ht
  · refine ⟨fun r => by simp [hs], fun f => ⟨fun h => ?_, fun ⟨hf, _⟩ => hf ▸ hs⟩⟩
    rw [hs] at h
    cases h
    exact ⟨rfl, w, rest, hin, hlt⟩

end Sys2Proof.Proofs
end

section
/-! SUPPORT. The invariant of every step (10_state.md sections 4 and 5): what starts it, and that absorbing, closing the
stream and a refusal keep it. -/

namespace Sys2Proof.Machine

/-- FINISH compresses once when the length fits the block at hand, and twice otherwise (40_stream_commands.md R105). -/
theorem closeStream_blocks (s : State) :
    (closeStream s).blocks = s.blocks + BitVec.ofNat 32 (if fillLevel s ≤ 55 then 1 else 2) := by
  rcases closeStream_cases s with ⟨hle, -, -, hblocks⟩ | ⟨hgt, _, -, -, -, hblocks⟩
  · rw [hblocks, if_pos hle]
  · rw [hblocks, if_neg (by omega), BitVec.add_assoc]
    rfl

theorem Code.bits_toNat_le (c : Code) : c.bits.toNat ≤ 3 := by
  cases c <;> decide

/-! ## What starts the invariant -/

theorem inv_initContext (uc : Bool) (s : State) : (initContext uc s).Inv := by
  simp [State.Inv]

/-! ## What keeps it -/

/-- The invariant is a matter of the context; `ERR` may be any code. -/
theorem State.Inv.of_sameButErr {s t : State} (h : s.Inv) (hst : SameButErr s t) (herr : t.err.toNat ≤ 3) : t.Inv := by
  obtain ⟨-, hbuf, hcount, hblocks, -, hphase⟩ := hst
  obtain ⟨hwf, hlt, -, hopened, hfinal⟩ := h
  unfold State.Inv
  rw [hbuf, hcount, hblocks, hphase]
  exact ⟨hwf, hlt, herr, hopened, hfinal⟩

theorem State.Inv.of_respond {s : State} (h : s.Inv) (c : Code) (data : List Byte) : (respond c data s).Inv := h

/-- A refusal records a code in `ERR` and keeps the rest of the context (60_exceptions.md R175). -/
theorem State.Inv.of_refused {s : State} (h : s.Inv) (c : Code) (n : Nat) :
    (refusedState c (afterPayload n s)).Inv := by
  obtain ⟨hsame, herr, -⟩ := refused_refusedState n c s
  obtain ⟨-, -, hle, -⟩ := id h
  refine h.of_sameButErr hsame ?_
  rw [herr]
  split
  · exact c.bits_toNat_le
  · exact hle

/-- Absorbing adds to `COUNT` and counts the blocks it completes (10_state.md R23, R24). -/
theorem State.Inv.of_absorbAll {s : State} (h : s.Inv) (hp : s.phase = .opened) {p : List Byte}
    (hlt : s.count.toNat + p.length < 2 ^ 61) : (absorbAll p s).Inv := by
  obtain ⟨hwf, -, herr, hopened, -⟩ := h
  have hcount := absorbAll_count_toNat (p := p) (s := s) (by omega)
  refine ⟨absorbAll_wf hwf p, by omega, by rwa [absorbAll_err], fun _ => ?_, fun hfinal => ?_⟩
  · rw [absorbAll_blocks, hopened hp, hcount, ← BitVec.ofNat_add, fillLevel, Config.block]
    congr 1
    omega
  · rw [absorbAll_phase, hp] at hfinal
    cases hfinal

/-- Closing the stream counts the padding blocks (10_state.md R24). -/
theorem State.Inv.of_closeStream {s : State} (h : s.Inv) (hp : s.phase = .opened) : (closeStream s).Inv := by
  obtain ⟨hwf, hlt, herr, hopened, -⟩ := h
  refine ⟨closeStream_wf hwf, by rwa [closeStream_count], by rwa [closeStream_err], fun hopen => ?_, fun _ => ?_⟩
  · rw [closeStream_phase] at hopen
    cases hopen
  · rw [closeStream_blocks, closeStream_count, hopened hp, ← BitVec.ofNat_add, fillLevel]

/-- A one-shot command counts its own message alone, whatever the context before. -/
theorem inv_hashPayload (uc : Bool) {p : List Byte} (s : State) (h : p.length < 2 ^ 61) : (hashPayload uc p s).Inv := by
  have habsorbed : (absorbAll p (initContext uc s)).Inv :=
    (inv_initContext uc s).of_absorbAll rfl (by simpa using h)
  exact habsorbed.of_closeStream (by simp)

/-- Every command a word can carry keeps the invariant. -/
theorem State.Inv.of_commandAnswer {i : Instr} {s t : State} (h : s.Inv) (hi : i.wellFormed = true)
    (ha : CommandAnswer i s t) : t.Inv := by
  cases ha with
  | init uc => exact (inv_initContext uc s).of_respond ..
  | updateFinal len | updateOverflow len => exact h.of_refused _ len
  | finishFinal | rddigOpened | rdtextOpened | rdsrIllegal => exact h.of_refused _ 0
  | rddig | rdtext | rdsr => exact h.of_respond ..
  | update len _ hp hl hc =>
    have hafter : (afterPayload len s).Inv := h
    refine (hafter.of_absorbAll hp ?_).of_respond ..
    rwa [List.length_take_of_le hl]
  | finish _ hp => exact (h.of_closeStream hp).of_respond ..
  | hasht _ len _ hl | hashb len _ hl =>
    have hlen : len < 2 ^ 24 := of_decide_eq_true hi
    refine (inv_hashPayload _ _ ?_).of_respond ..
    rw [List.length_take_of_le hl]
    omega

end Sys2Proof.Machine

namespace Sys2Proof.Proofs
open Sys2Proof.Machine

/-- Settles O48: each of the steps the machine can take keeps the invariant, a decoded command being well-formed. -/
theorem stepKeepsInv : Obligations.StepKeepsInv := by
  unfold Obligations.StepKeepsInv
  intro s t h hstep
  cases step_next hstep with
  | idle => exact h
  | reset => exact inv_initContext false _
  | command w rest i _ _ hd ha =>
    have hrest : State.Inv { s with inputs := rest } := h
    exact hrest.of_commandAnswer (wellFormed_of_decode_ok hd) ha
  | illegalWord w rest =>
    have hrest : State.Inv { s with inputs := rest } := h
    exact hrest.of_refused .illegal (payloadLen w)

/-- Settles O49: the state at reset is an initial context. -/
theorem invHoldsAtReset : Obligations.InvHoldsAtReset := by
  unfold Obligations.InvHoldsAtReset
  exact inv_initContext false State.reset

end Sys2Proof.Proofs
end

section
/-! SUPPORT. Two contexts that differ in one respect (`AlikeBut`): what one command does from each of them. The stale
bytes of `BUF`, `ERR`, `UC` and `BLOCKS` are such respects, and each shows in few responses or in none. -/

namespace Sys2Proof.Machine

/-! ## The respects in which two contexts may differ -/

/-- What two contexts may differ in. -/
inductive Difference where
  /-- Nothing: the whole context is the same. -/
  | nothing
  /-- The bytes of `BUF` at and above the fill level while `OPEN`, any while `FINAL` (10_state.md R22). -/
  | staleBytes
  /-- `ERR` (10_state.md R27). -/
  | err
  /-- `UC` (10_state.md R25). -/
  | uc
  /-- `BLOCKS` (10_state.md R24). -/
  | blocks

/-- The bytes of `BUF` a command may look at are the same: those below the fill level of an open stream. -/
def SameStaged (s s' : State) : Prop :=
  s.buf.wf = true ∧ s'.buf.wf = true ∧ (s.phase = .opened → ∀ a < fillLevel s, s'.buf.read a = s.buf.read a)

/-- Two contexts that differ at most in the respect `d`; the ports may be any. -/
structure AlikeBut (d : Difference) (s s' : State) : Prop where
  h : s'.h = s.h
  count : s'.count = s.count
  phase : s'.phase = s.phase
  buf : d ≠ .staleBytes → s'.buf = s.buf
  staged : d = .staleBytes → SameStaged s s'
  blocks : d ≠ .blocks → s'.blocks = s.blocks
  uc : d ≠ .uc → s'.uc = s.uc
  err : d ≠ .err → s'.err = s.err

/-- A command whose response shows the respect `d`: RDTEXT the case, RDSR the fields of the status values
(10_state.md R35, 41_output_commands.md R123). -/
def Shows : Difference → Instr → Prop
  | .nothing, _ => False
  | .staleBytes, _ => False
  | .err, i => i = .rdsr 0
  | .uc, i => i = .rdtext ∨ i = .rdsr 0
  | .blocks, i => i = .rdsr 1

theorem alikeBut_nothing_iff {s s' : State} : AlikeBut .nothing s s' ↔ SameContext s s' := by
  constructor
  · intro h
    exact ⟨⟨h.h, h.buf nofun, h.count, h.blocks nofun, h.uc nofun, h.phase⟩, h.err nofun⟩
  · rintro ⟨⟨hh, hbuf, hcount, hblocks, huc, hphase⟩, herr⟩
    exact ⟨hh, hcount, hphase, fun _ => hbuf, nofun, fun _ => hblocks, fun _ => huc, fun _ => herr⟩

theorem AlikeBut.fillLevel_eq {d : Difference} {s s' : State} (h : AlikeBut d s s') : fillLevel s' = fillLevel s := by
  rw [fillLevel, fillLevel, h.count]

/-- Being alike is a matter of the two contexts. -/
theorem AlikeBut.of_sameContext {d : Difference} {s s' t t' : State} (h : AlikeBut d s s') (ht : SameContext s t)
    (ht' : SameContext s' t') : AlikeBut d t t' := by
  obtain ⟨⟨hh, hbuf, hcount, hblocks, huc, hphase⟩, herr⟩ := ht
  obtain ⟨⟨hh', hbuf', hcount', hblocks', huc', hphase'⟩, herr'⟩ := ht'
  constructor
  · rw [hh, hh', h.h]
  · rw [hcount, hcount', h.count]
  · rw [hphase, hphase', h.phase]
  · rw [hbuf, hbuf']; exact h.buf
  · rw [SameStaged, fillLevel, hbuf, hbuf', hphase, hcount]; exact h.staged
  · rw [hblocks, hblocks']; exact h.blocks
  · rw [huc, huc']; exact h.uc
  · rw [herr, herr']; exact h.err

theorem sameContext_refl (s : State) : SameContext s s := by
  simp [SameContext, SameButErr]

theorem sameContext_afterPayload (n : Nat) (s : State) : SameContext s (afterPayload n s) := by
  simp [SameContext, SameButErr]

theorem sameContext_respond (c : Code) (data : List Byte) (s : State) : SameContext s (respond c data s) := by
  simp [SameContext, SameButErr]

/-! ## The operations, from two contexts that are alike -/

/-- Responses and payloads are no part of the context. -/
theorem AlikeBut.respond {d : Difference} {s s' : State} (h : AlikeBut d s s') (c c' : Code) (x x' : List Byte) :
    AlikeBut d (respond c x s) (respond c' x' s') :=
  h.of_sameContext (sameContext_respond ..) (sameContext_respond ..)

theorem AlikeBut.afterPayload {d : Difference} {s s' : State} (h : AlikeBut d s s') (n n' : Nat) :
    AlikeBut d (afterPayload n s) (afterPayload n' s') :=
  h.of_sameContext (sameContext_afterPayload ..) (sameContext_afterPayload ..)

theorem AlikeBut.recordError {d : Difference} {s s' : State} (h : AlikeBut d s s') (c : Code) :
    AlikeBut d (recordError c s) (recordError c s') := by
  constructor
  · simpa using h.h
  · simpa using h.count
  · simpa using h.phase
  · simpa using h.buf
  · simpa [SameStaged, fillLevel] using h.staged
  · simpa using h.blocks
  · simpa using h.uc
  · intro hd
    rw [recordError_err, recordError_err, h.err hd]

theorem AlikeBut.refused {d : Difference} {s s' : State} (h : AlikeBut d s s') (c : Code) (n : Nat) :
    AlikeBut d (refusedState c (Machine.afterPayload n s)) (refusedState c (Machine.afterPayload n s')) :=
  ((h.afterPayload n n).recordError c).respond ..

/-- INIT leaves one context, whatever it finds (10_state.md R33). -/
theorem alikeBut_initContext (d : Difference) (uc : Bool) (s s' : State) :
    AlikeBut d (initContext uc s) (initContext uc s') where
  h := rfl
  count := rfl
  phase := rfl
  buf _ := rfl
  staged _ := ⟨rfl, rfl, fun _ _ _ => rfl⟩
  blocks _ := rfl
  uc _ := rfl
  err _ := rfl

/-- With the next byte staged, the bytes up to it read alike. -/
theorem AlikeBut.read_write_eq {d : Difference} {s s' : State} (h : AlikeBut d s s') (hp : s.phase = .opened) (b : Byte)
    {a : Nat} (ha : a ≤ fillLevel s) :
    (s'.buf.write (fillLevel s') b).read a = (s.buf.write (fillLevel s) b).read a := by
  rw [h.fillLevel_eq]
  by_cases hd : d = .staleBytes
  · obtain ⟨hwf, hwf', hstaged⟩ := h.staged hd
    rw [Memory.read_write hwf, Memory.read_write hwf']
    split
    · rfl
    · exact hstaged hp a (by omega)
  · rw [h.buf hd]

theorem AlikeBut.absorb {d : Difference} {s s' : State} (h : AlikeBut d s s') (hp : s.phase = .opened) (b : Byte) :
    AlikeBut d (absorb s b) (absorb s' b) := by
  have hfill := h.fillLevel_eq
  have hlt := fillLevel_lt s
  have hstage := fillLevel_stage b s
  have hread := fun a => h.read_write_eq hp b (a := a)
  have hblock : fillLevel s = 63 → bufBlock (s'.buf.write (fillLevel s') b) = bufBlock (s.buf.write (fillLevel s) b) :=
    fun hfull => bufBlock_congr fun a ha => hread a (by omega)
  refine ⟨?_, ?_, ?_, fun hd => ?_, fun hd => ?_, fun hd => ?_, fun hd => ?_, fun hd => ?_⟩
  · by_cases hfull : fillLevel s = 63
    · rw [absorb_of_fillLevel_eq hfull, absorb_of_fillLevel_eq (hfill.trans hfull), compressBuf_h, compressBuf_h,
        stage_h, stage_h, stage_buf, stage_buf, hblock hfull, h.h]
    · rw [absorb_of_fillLevel_ne hfull, absorb_of_fillLevel_ne (hfill ▸ hfull), stage_h, stage_h, h.h]
  · rw [absorb_count, absorb_count, h.count]
  · rw [absorb_phase, absorb_phase, h.phase]
  · rw [absorb_buf, absorb_buf, hfill, h.buf hd]
  · obtain ⟨hwf, hwf', -⟩ := h.staged hd
    refine ⟨absorb_wf hwf b, absorb_wf hwf' b, fun _ a ha => ?_⟩
    have hnext : fillLevel (Machine.absorb s b) = (fillLevel s + 1) % 64 := by
      rw [← hstage, fillLevel, absorb_count, fillLevel, stage_count]
    rw [absorb_buf, absorb_buf]
    exact hread a (by omega)
  · by_cases hfull : fillLevel s = 63
    · rw [absorb_of_fillLevel_eq hfull, absorb_of_fillLevel_eq (hfill.trans hfull), compressBuf_blocks,
        compressBuf_blocks, stage_blocks, stage_blocks, h.blocks hd]
    · rw [absorb_of_fillLevel_ne hfull, absorb_of_fillLevel_ne (hfill ▸ hfull), stage_blocks, stage_blocks, h.blocks hd]
  · rw [absorb_uc, absorb_uc, h.uc hd]
  · rw [absorb_err, absorb_err, h.err hd]

theorem AlikeBut.absorbAll {d : Difference} {s s' : State} (h : AlikeBut d s s') (hp : s.phase = .opened)
    (p : List Byte) : AlikeBut d (absorbAll p s) (absorbAll p s') := by
  induction p generalizing s s' with
  | nil => exact h
  | cons b p ih => exact ih (h.absorb hp b) (by rwa [absorb_phase])

/-- Closing the stream looks at `H`, `BUF` and `COUNT` alone. -/
theorem closeStream_buf_h_congr {s s' : State} (hh : s'.h = s.h) (hbuf : s'.buf = s.buf) (hcount : s'.count = s.count) :
    (closeStream s').buf = (closeStream s).buf ∧ (closeStream s').h = (closeStream s).h := by
  have hfill : fillLevel s' = fillLevel s := by rw [fillLevel, fillLevel, hcount]
  have hlength : bitLength s' = bitLength s := by rw [bitLength, bitLength, hcount]
  rcases closeStream_cases s with ⟨hn, hb, hc, -⟩ | ⟨hn, _, rfl, hb, hc, -⟩ <;>
    rcases closeStream_cases s' with ⟨hn', hb', hc', -⟩ | ⟨hn', _, rfl, hb', hc', -⟩
  · have hlast : (closeStream s').buf = (closeStream s).buf := by rw [hb, hb', hfill, hbuf, hlength]
    exact ⟨hlast, by rw [hc, hc', hlast, hh]⟩
  · omega
  · omega
  · have hlast : (closeStream s').buf = (closeStream s).buf := by rw [hb, hb', hfill, hbuf, hlength]
    exact ⟨hlast, by rw [hc, hc', hlast, hh, hbuf, hfill]⟩

/-- Of `BUF`, the digest of a stream looks at the staged bytes alone (40_stream_commands.md R105). -/
theorem closeStream_h_of_sameStaged {s s' : State} (hstaged : SameStaged s s') (hp : s.phase = .opened)
    (hh : s'.h = s.h) (hcount : s'.count = s.count) : (closeStream s').h = (closeStream s).h := by
  obtain ⟨hwf, hwf', hread⟩ := hstaged
  have hfill : fillLevel s' = fillLevel s := by rw [fillLevel, fillLevel, hcount]
  have hlength : bitLength s' = bitLength s := by rw [bitLength, bitLength, hcount]
  have hmarked (z : Nat) : markedBytes s'.buf (fillLevel s') z = markedBytes s.buf (fillLevel s) z := by
    rw [markedBytes, markedBytes, hfill]
    congr 2
    exact List.map_congr_left fun a ha => hread hp a (List.mem_range.1 ha)
  by_cases hn : fillLevel s ≤ 55
  · obtain ⟨hclose, -⟩ := closeStream_of_fillLevel_le hwf hn
    obtain ⟨hclose', -⟩ := closeStream_of_fillLevel_le hwf' (hfill ▸ hn)
    rw [hclose, hclose', onePaddingBlock, onePaddingBlock, hmarked, hlength, hh, hfill]
  · have hn : 56 ≤ fillLevel s := by omega
    obtain ⟨hclose, -⟩ := closeStream_of_le_fillLevel hwf hn
    obtain ⟨hclose', -⟩ := closeStream_of_le_fillLevel hwf' (hfill ▸ hn)
    rw [hclose, hclose', lengthOnlyBlock, lengthOnlyBlock, hmarked, hlength, hh, hfill]

theorem AlikeBut.closeStream {d : Difference} {s s' : State} (h : AlikeBut d s s') (hp : s.phase = .opened) :
    AlikeBut d (closeStream s) (closeStream s') := by
  refine ⟨?_, ?_, ?_, fun hd => ?_, fun hd => ?_, fun hd => ?_, fun hd => ?_, fun hd => ?_⟩
  · by_cases hd : d = .staleBytes
    · exact closeStream_h_of_sameStaged (h.staged hd) hp h.h h.count
    · exact (closeStream_buf_h_congr h.h (h.buf hd) h.count).2
  · rw [closeStream_count, closeStream_count, h.count]
  · rw [closeStream_phase, closeStream_phase]
  · exact (closeStream_buf_h_congr h.h (h.buf hd) h.count).1
  · obtain ⟨hwf, hwf', -⟩ := h.staged hd
    refine ⟨closeStream_wf hwf, closeStream_wf hwf', fun hopen => ?_⟩
    rw [closeStream_phase] at hopen
    cases hopen
  · rw [closeStream_blocks, closeStream_blocks, h.fillLevel_eq, h.blocks hd]
  · rw [closeStream_uc, closeStream_uc, h.uc hd]
  · rw [closeStream_err, closeStream_err, h.err hd]

/-- A one-shot command leaves one context, whatever it finds (42_oneshot_commands.md R132). -/
theorem alikeBut_hashPayload (d : Difference) (uc : Bool) (p : List Byte) (s s' : State) :
    AlikeBut d (hashPayload uc p s) (hashPayload uc p s') :=
  ((alikeBut_initContext d uc s s').absorbAll rfl p).closeStream (by simp)

/-! ## One command, from two contexts that are alike -/

/-- What `exec_next` says a command can do, it does. -/
theorem CommandAnswer.exec_eq {i : Instr} {s t : State} (h : CommandAnswer i s t) : exec i s = .next t := by
  cases h with
  | init => rfl
  | updateFinal _ _ hp hl => exact exec_update_of_final hp hl
  | updateOverflow _ _ hp hl hc => exact exec_update_of_overflow hp hl hc
  | update _ _ hp hl hc => exact exec_update_of_lt hp hl hc
  | finishFinal _ hp => exact exec_finish_of_final hp
  | finish _ hp => exact exec_finish_of_opened hp
  | rddigOpened _ hp => exact exec_rddig_of_opened hp
  | rddig _ hp => exact exec_rddig_of_final hp
  | rdtextOpened _ hp => exact exec_rdtext_of_opened hp
  | rdtext _ hp => exact exec_rdtext_of_final hp
  | hasht uc len _ hl =>
    obtain ⟨t, ht, ha⟩ := exec_next_of_payload (.hasht uc len) s hl
    cases ha
    exact ht
  | hashb len _ hl =>
    obtain ⟨t, ht, ha⟩ := exec_next_of_payload (.hashb len) s hl
    cases ha
    exact ht
  | rdsrIllegal _ _ hs => exact exec_rdsr_of_lt s hs
  | rdsr _ _ _ _ hv => exact exec_rdsr_of_some hv

/-- No command touches the words still on `CMD`. -/
theorem CommandAnswer.inputs_eq {i : Instr} {s t : State} (h : CommandAnswer i s t) : t.inputs = s.inputs := by
  cases h with
  | _ => simp [refusedState]

/-- A status value depends on the fields it shows. -/
theorem AlikeBut.statusValue_eq {d : Difference} {s s' : State} (h : AlikeBut d s s') {sel : Nat}
    (hshow : ¬ Shows d (.rdsr sel)) : statusValue sel s' = statusValue sel s := by
  match sel with
  | 0 =>
    have hword : statusWord s' = statusWord s := by
      have huc : d ≠ .uc := by rintro rfl; exact hshow (.inr rfl)
      have herr : d ≠ .err := by rintro rfl; exact hshow rfl
      rw [statusWord, statusWord, h.phase, h.uc huc, h.err herr]
    exact congrArg some hword
  | 1 =>
    have hblocks : d ≠ .blocks := by rintro rfl; exact hshow rfl
    exact congrArg some (h.blocks hblocks)
  | 2 => exact congrArg (fun count : BitVec 64 => some (count.extractLsb' 0 32)) h.count
  | 3 => exact congrArg (fun count : BitVec 64 => some (count.extractLsb' 32 32)) h.count
  | n + 4 => rfl

/-- The same answer, after the responses so far. -/
def SameAnswer (s t s' t' : State) : Prop := ∃ r, t.rsp = s.rsp ++ [r] ∧ t'.rsp = s'.rsp ++ [r]

theorem SameAnswer.of_refused (c : Code) (n : Nat) (s s' : State) :
    SameAnswer s (refusedState c (afterPayload n s)) s' (refusedState c (afterPayload n s')) :=
  ⟨⟨c, []⟩, refusedState_rsp .., refusedState_rsp ..⟩

theorem SameAnswer.of_respond {s u s' u' : State} {data data' : List Byte} (hu : u.rsp = s.rsp) (hu' : u'.rsp = s'.rsp)
    (hdata : data' = data) : SameAnswer s (respond .ok data u) s' (respond .ok data' u') :=
  ⟨⟨.ok, data⟩, by rw [respond_rsp, hu], by rw [respond_rsp, hu', hdata]⟩

/-- A command leaves alike contexts alike, and its answer is the same unless it shows the difference. -/
theorem AlikeBut.commandAnswer {d : Difference} {i : Instr} {s s' t : State} (h : AlikeBut d s s')
    (hdin : s'.din = s.din) (ha : CommandAnswer i s t) :
    ∃ t', CommandAnswer i s' t' ∧ AlikeBut d t t' ∧ (¬ Shows d i → SameAnswer s t s' t') := by
  cases ha with
  | init uc => exact ⟨_, .init uc s', (alikeBut_initContext d uc s s').respond .., fun _ => .of_respond rfl rfl rfl⟩
  | updateFinal len _ hp hl =>
    exact ⟨_, .updateFinal len s' (h.phase.trans hp) (hdin ▸ hl), h.refused .phase len, fun _ => .of_refused ..⟩
  | updateOverflow len _ hp hl hc =>
    exact ⟨_, .updateOverflow len s' (h.phase.trans hp) (hdin ▸ hl) (h.count ▸ hc), h.refused .overflow len,
      fun _ => .of_refused ..⟩
  | update len _ hp hl hc =>
    refine ⟨_, .update len s' (h.phase.trans hp) (hdin ▸ hl) (h.count ▸ hc), ?_,
      fun _ => .of_respond (by simp) (by simp) rfl⟩
    rw [hdin]
    exact ((h.afterPayload len len).absorbAll hp _).respond ..
  | finishFinal _ hp =>
    exact ⟨_, .finishFinal s' (h.phase.trans hp), h.refused .phase 0, fun _ => .of_refused .phase 0 s s'⟩
  | finish _ hp =>
    exact ⟨_, .finish s' (h.phase.trans hp), (h.closeStream hp).respond ..,
      fun _ => .of_respond (by simp) (by simp) rfl⟩
  | rddigOpened _ hp =>
    exact ⟨_, .rddigOpened s' (h.phase.trans hp), h.refused .phase 0, fun _ => .of_refused .phase 0 s s'⟩
  | rddig _ hp =>
    exact ⟨_, .rddig s' (h.phase.trans hp), h.respond .., fun _ => .of_respond rfl rfl (by rw [h.h])⟩
  | rdtextOpened _ hp =>
    exact ⟨_, .rdtextOpened s' (h.phase.trans hp), h.refused .phase 0, fun _ => .of_refused .phase 0 s s'⟩
  | rdtext _ hp =>
    refine ⟨_, .rdtext s' (h.phase.trans hp), h.respond .., fun hshow => .of_respond rfl rfl ?_⟩
    have huc : d ≠ .uc := by rintro rfl; exact hshow (.inl rfl)
    rw [h.h, h.uc huc]
  | hasht uc len _ hl =>
    have hhashed :=
      alikeBut_hashPayload d uc (s.din.take len) (Machine.afterPayload len s) (Machine.afterPayload len s')
    refine ⟨_, .hasht uc len s' (hdin ▸ hl), ?_, fun _ => .of_respond (by simp) (by simp) ?_⟩ <;> rw [hdin]
    · exact hhashed.respond ..
    · rw [hhashed.h]
  | hashb len _ hl =>
    have hhashed :=
      alikeBut_hashPayload d false (s.din.take len) (Machine.afterPayload len s) (Machine.afterPayload len s')
    refine ⟨_, .hashb len s' (hdin ▸ hl), ?_, fun _ => .of_respond (by simp) (by simp) ?_⟩ <;> rw [hdin]
    · exact hhashed.respond ..
    · rw [hhashed.h]
  | rdsrIllegal sel _ hs =>
    exact ⟨_, .rdsrIllegal sel s' hs, h.refused .illegal 0, fun _ => .of_refused .illegal 0 s s'⟩
  | rdsr sel _ v hs hv =>
    rcases statusValue_cases sel s' with ⟨-, v', hv'⟩ | ⟨hs', -⟩
    · refine ⟨_, .rdsr sel s' v' hs hv', h.respond .., fun hshow => .of_respond rfl rfl ?_⟩
      have hvalue := h.statusValue_eq hshow
      rw [hv, hv'] at hvalue
      rw [Option.some.inj hvalue]
    · omega

/-- One command from a state alike but in `d`, the ports the same. -/
theorem AlikeBut.exec {d : Difference} {i : Instr} {s s' t : State} (h : AlikeBut d s s')
    (hinputs : s'.inputs = s.inputs) (hdin : s'.din = s.din) (hrsp : s'.rsp = s.rsp) (ht : exec i s = .next t) :
    ∃ t', Machine.exec i s' = .next t' ∧ AlikeBut d t t' ∧ t'.inputs = t.inputs ∧ t'.din = t.din ∧
      (¬ Shows d i → t'.rsp = t.rsp) := by
  have ha := exec_next ht
  obtain ⟨t', ha', halike, hanswer⟩ := h.commandAnswer hdin ha
  refine ⟨t', ha'.exec_eq, halike, ?_, ?_, fun hshow => ?_⟩
  · rw [ha'.inputs_eq, ha.inputs_eq, hinputs]
  · rw [ha'.din_eq, ha.din_eq, hdin]
  · obtain ⟨r, hr, hr'⟩ := hanswer hshow
    rw [hr, hr', hrsp]

/-! ## Stale bytes -/

theorem sameUpToStale_iff {s s' : State} :
    SameUpToStale s s' ↔
      AlikeBut .staleBytes s s' ∧ s'.inputs = s.inputs ∧ s'.din = s.din ∧ s'.rsp = s.rsp := by
  constructor
  · rintro ⟨hh, hcount, hblocks, huc, hphase, herr, hinputs, hdin, hrsp, hwf, hwf', hread⟩
    exact ⟨⟨hh, hcount, hphase, fun hd => absurd rfl hd, fun _ => ⟨hwf, hwf', hread⟩, fun _ => hblocks, fun _ => huc,
      fun _ => herr⟩, hinputs, hdin, hrsp⟩
  · rintro ⟨h, hinputs, hdin, hrsp⟩
    obtain ⟨hwf, hwf', hread⟩ := h.staged rfl
    exact ⟨h.h, h.count, h.blocks nofun, h.uc nofun, h.phase, h.err nofun, hinputs, hdin, hrsp, hwf, hwf', hread⟩

end Sys2Proof.Machine

namespace Sys2Proof.Proofs
open Sys2Proof.Machine

/-- Settles O54: each step the machine can take from one of the two states it takes from the other, and no command
shows stale bytes. -/
theorem staleBytesAreUnobservable : Obligations.StaleBytesAreUnobservable := by
  unfold Obligations.StaleBytesAreUnobservable
  intro s s' t h hstep
  simp only [sameUpToStale_iff] at h ⊢
  obtain ⟨halike, hinputs, hdin, hrsp⟩ := h
  have hdropped (rest : List HostInput) : AlikeBut .staleBytes { s with inputs := rest } { s' with inputs := rest } :=
    halike.of_sameContext (sameContext_refl s) (sameContext_refl s')
  cases step_next hstep with
  | idle hin => exact ⟨s', step_of_inputs_nil (hinputs.trans hin), halike, hinputs, hdin, hrsp⟩
  | reset rest hin =>
    exact ⟨_, step_of_reset (hinputs.trans hin), alikeBut_initContext .staleBytes false _ _, rfl, hdin, hrsp⟩
  | command w rest i _ hin hd ha =>
    obtain ⟨t', ht', halike', hinputs', hdin', hrsp'⟩ := (hdropped rest).exec rfl hdin hrsp ha.exec_eq
    exact ⟨t', by rw [step_of_decode_ok (hinputs.trans hin) hd, ht'], halike', hinputs', hdin', hrsp' id⟩
  | illegalWord w rest e hin hd hl =>
    have hl' : payloadLen w ≤ s'.din.length := hdin ▸ hl
    refine ⟨_, ?_, (hdropped rest).refused .illegal (payloadLen w), ?_, ?_, ?_⟩
    · rw [step_of_command (hinputs.trans hin), runWord_of_decode_error hd]
      exact refuseIllegalWord_of_le hl'
    · simp [refusedState]
    · simp [refusedState, hdin]
    · simp [hrsp]

/-- Settles O46: `ERR` shows in RDSR select 0 alone. -/
theorem errorFieldGatesNothing : Obligations.ErrorFieldGatesNothing := by
  unfold Obligations.ErrorFieldGatesNothing
  intro i s t e ht
  have halike : AlikeBut .err s { s with err := e } :=
    ⟨rfl, rfl, rfl, fun _ => rfl, nofun, fun _ => rfl, fun _ => rfl, fun hd => absurd rfl hd⟩
  obtain ⟨t', ht', h, hinputs, hdin, hrsp⟩ := halike.exec rfl rfl rfl ht
  exact ⟨t', ht', ⟨h.h, h.buf nofun, h.count, h.blocks nofun, h.uc nofun, h.phase⟩, hinputs, hdin, hrsp⟩

/-- Settles O52: `UC` shows in RDTEXT and RDSR select 0 alone. -/
theorem hexCaseDoesNotAffectTheDigest : Obligations.HexCaseDoesNotAffectTheDigest := by
  unfold Obligations.HexCaseDoesNotAffectTheDigest
  intro i s t uc ht
  have halike : AlikeBut .uc s { s with uc := uc } :=
    ⟨rfl, rfl, rfl, fun _ => rfl, nofun, fun _ => rfl, fun hd => absurd rfl hd, fun _ => rfl⟩
  obtain ⟨t', ht', h, hinputs, hdin, hrsp⟩ := halike.exec rfl rfl rfl ht
  refine ⟨t', ht', h.h, h.buf nofun, h.count, h.blocks nofun, h.phase, h.err nofun, hinputs, hdin, ?_⟩
  rintro rfl
  exact hrsp (by simp [Shows])

/-- Settles O53: `BLOCKS` shows in RDSR select 1 alone. -/
theorem blockCounterAffectsNothing : Obligations.BlockCounterAffectsNothing := by
  unfold Obligations.BlockCounterAffectsNothing
  intro i s t n ht
  have halike : AlikeBut .blocks s { s with blocks := n } :=
    ⟨rfl, rfl, rfl, fun _ => rfl, nofun, fun hd => absurd rfl hd, fun _ => rfl, fun _ => rfl⟩
  obtain ⟨t', ht', h, hinputs, hdin, hrsp⟩ := halike.exec rfl rfl rfl ht
  exact ⟨t', ht', h.h, h.buf nofun, h.count, h.uc nofun, h.phase, h.err nofun, hinputs, hdin, hrsp⟩

end Sys2Proof.Proofs
end

section
/-! SUPPORT. Laws of composition: two UPDATEs are one (40_stream_commands.md section 2), and a one-shot command is INIT,
UPDATE, FINISH and the read, whatever the state (42_oneshot_commands.md). -/

namespace Sys2Proof.Machine

theorem alikeBut_refl_nothing (s : State) : AlikeBut .nothing s s := alikeBut_nothing_iff.2 (sameContext_refl s)

/-- UPDATE of `n₁` bytes and of the next `n₂` leaves the context of one UPDATE of them all. -/
theorem sameContext_update_update {s : State} (hp : s.phase = .opened) (p q : List Byte) (n n₁ n₂ : Nat) :
    SameContext (respond .ok [] (absorbAll (p ++ q) (afterPayload n s)))
      (respond .ok [] (absorbAll q (afterPayload n₂ (respond .ok [] (absorbAll p (afterPayload n₁ s)))))) := by
  have hfirst : AlikeBut .nothing (absorbAll p (afterPayload n s)) (absorbAll p (afterPayload n₁ s)) :=
    ((alikeBut_refl_nothing s).afterPayload n n₁).absorbAll hp p
  have hbetween : AlikeBut .nothing (absorbAll p (afterPayload n s))
      (afterPayload n₂ (respond .ok [] (absorbAll p (afterPayload n₁ s)))) :=
    hfirst.of_sameContext (sameContext_refl _) (by simp [SameContext, SameButErr])
  rw [absorbAll_append]
  exact alikeBut_nothing_iff.1 ((hbetween.absorbAll (by simpa using hp) q).respond ..)

/-- INIT, UPDATE and FINISH leave the context of the one-shot commands' state writes. -/
theorem sameContext_init_update_finish (uc : Bool) (p : List Byte) (n : Nat) (s : State) :
    SameContext (hashPayload uc p (afterPayload n s))
      (respond .ok [] (closeStream (respond .ok []
        (absorbAll p (afterPayload n (respond .ok [] (initContext uc s))))))) := by
  have hstart : AlikeBut .nothing (initContext uc (afterPayload n s))
      (afterPayload n (respond .ok [] (initContext uc s))) :=
    (alikeBut_initContext .nothing uc (afterPayload n s) s).of_sameContext (sameContext_refl _)
      (by simp [SameContext, SameButErr])
  have habsorbed := (hstart.absorbAll rfl p).of_sameContext (sameContext_refl _) (sameContext_respond .ok [] _)
  have hclosed := habsorbed.closeStream (by simp)
  exact alikeBut_nothing_iff.1 (hclosed.of_sameContext (sameContext_refl _) (sameContext_respond .ok [] _))

theorem sameContext_trans {s t u : State} (hst : SameContext s t) (htu : SameContext t u) : SameContext s u :=
  alikeBut_nothing_iff.1 ((alikeBut_nothing_iff.2 hst).of_sameContext (sameContext_refl s) htu)

/-- INIT, UPDATE of a payload that is there, and FINISH leave the one-shot commands' context. -/
theorem exec_init_update_finish (uc : Bool) {len : Nat} {s : State} (hlt : len < 2 ^ 61) (hl : len ≤ s.din.length) :
    ∃ t₁ t₂ t₃, exec (.init uc) s = .next t₁ ∧ exec (.update len) t₁ = .next t₂ ∧ exec .finish t₂ = .next t₃ ∧
      SameContext (hashPayload uc (s.din.take len) (afterPayload len s)) t₃ ∧ t₃.din = s.din.drop len := by
  refine ⟨_, _, _, rfl, exec_update_of_lt rfl hl ?_, exec_finish_of_opened (by simp),
    sameContext_init_update_finish uc _ len s, by simp⟩
  simpa using hlt

/-- The state a one-shot command leaves: its payload hashed, and the digest rendered as its response
(42_oneshot_commands.md R130, R131). -/
def oneShotState (render : Accumulator → List Byte) (uc : Bool) (len : Nat) (s : State) : State :=
  respond .ok (render (hashPayload uc (s.din.take len) (afterPayload len s)).h)
    (hashPayload uc (s.din.take len) (afterPayload len s))

theorem exec_hasht_eq (uc : Bool) {len : Nat} {s : State} (hl : len ≤ s.din.length) :
    exec (.hasht uc len) s = .next (oneShotState (hexText · uc) uc len s) := (CommandAnswer.hasht uc len s hl).exec_eq

theorem exec_hashb_eq {len : Nat} {s : State} (hl : len ≤ s.din.length) :
    exec (.hashb len) s = .next (oneShotState digestBytes false len s) := (CommandAnswer.hashb len s hl).exec_eq

/-- The same payload gives the same context and the same response. -/
theorem oneShotState_alike (render : Accumulator → List Byte) (uc : Bool) {len : Nat} {s s' : State}
    (htake : s.din.take len = s'.din.take len) :
    SameContext (oneShotState render uc len s) (oneShotState render uc len s') ∧
      SameAnswer s (oneShotState render uc len s) s' (oneShotState render uc len s') := by
  have halike := alikeBut_hashPayload .nothing uc (s.din.take len) (afterPayload len s) (afterPayload len s')
  rw [oneShotState, oneShotState, ← htake]
  exact ⟨alikeBut_nothing_iff.1 (halike.respond ..), .of_respond (by simp) (by simp) (by rw [halike.h])⟩

end Sys2Proof.Machine

namespace Sys2Proof.Proofs
open Sys2Proof.Machine

/-- Settles O25: absorbing is byte by byte, so where the fragments are cut does not matter. -/
theorem streamingProperty : Obligations.StreamingProperty := by
  unfold Obligations.StreamingProperty
  intro n₁ n₂ s hp hl hc
  have hcount := absorbAll_count_toNat (p := s.din.take n₁) (s := afterPayload n₁ s)
    (by rw [List.length_take_of_le (by omega), afterPayload_count]; omega)
  rw [List.length_take_of_le (by omega), afterPayload_count] at hcount
  refine ⟨_, _, _, exec_update_of_lt hp (by omega) (by omega), exec_update_of_lt ?_ ?_ ?_, exec_update_of_lt hp hl hc,
    ?_, by simp, ?_⟩
  · simpa using hp
  · simp only [respond_din, absorbAll_din, afterPayload_din, List.length_drop]
    omega
  · rw [respond_count, hcount]
    omega
  · simp only [respond_din, absorbAll_din, afterPayload_din, List.take_add]
    exact sameContext_update_update hp ..
  · simp

/-- Settles O39: the read answers with the accumulator, and RDTEXT the case, that the stream leaves. -/
theorem oneShotIsTheComposition : Obligations.OneShotIsTheComposition := by
  unfold Obligations.OneShotIsTheComposition
  constructor
  · intro uc len s hlt hl
    obtain ⟨t₁, t₂, t₃, h₁, h₂, h₃, hsame, hdin⟩ := exec_init_update_finish uc (len := len) (by omega) hl
    obtain ⟨⟨hh, -, -, -, huc, hphase⟩, -⟩ := id hsame
    rw [hashPayload_phase] at hphase
    rw [hashPayload_uc] at huc
    refine ⟨t₁, t₂, t₃, _, _, _, h₁, h₂, h₃, exec_rdtext_of_final hphase, exec_hasht_eq uc hl,
      sameContext_trans hsame (sameContext_respond ..), ?_, rfl, ?_⟩
    · simpa [oneShotState] using hdin
    · simp [oneShotState, hh, huc]
  · intro len s hlt hl
    obtain ⟨t₁, t₂, t₃, h₁, h₂, h₃, hsame, hdin⟩ := exec_init_update_finish false (len := len) (by omega) hl
    obtain ⟨⟨hh, -, -, -, -, hphase⟩, -⟩ := id hsame
    rw [hashPayload_phase] at hphase
    refine ⟨t₁, t₂, t₃, _, _, _, h₁, h₂, h₃, exec_rddig_of_final hphase, exec_hashb_eq hl,
      sameContext_trans hsame (sameContext_respond ..), ?_, rfl, ?_⟩
    · simpa [oneShotState] using hdin
    · simp [oneShotState, hh]

/-- Settles O40: the state writes of a one-shot command begin with INIT's, which leave one context. -/
theorem oneShotIgnoresTheState : Obligations.OneShotIgnoresTheState := by
  unfold Obligations.OneShotIgnoresTheState
  intro uc len s s' hl htake
  have hl' : len ≤ s'.din.length := by
    have hlength := congrArg List.length htake
    rw [List.length_take, List.length_take] at hlength
    omega
  obtain ⟨hcontext, r, hr, hr'⟩ := oneShotState_alike (hexText · uc) uc htake
  obtain ⟨hcontextB, rB, hrB, hrB'⟩ := oneShotState_alike digestBytes false htake
  exact ⟨⟨_, _, r, exec_hasht_eq uc hl, exec_hasht_eq uc hl', hcontext, hr, hr'⟩,
    ⟨_, _, rB, exec_hashb_eq hl, exec_hashb_eq hl', hcontextB, hrB, hrB'⟩⟩

end Sys2Proof.Proofs
end

section
/-! SUPPORT. The block-wise form of UPDATE (40_stream_commands.md R104): a payload that stays in its block is stored,
one that just fills it is stored and compressed, and a longer one is cut into such parts. -/

namespace Sys2Proof.Machine

/-- The state with `COUNT` replaced. -/
def withCount (c : BitVec 64) (s : State) : State := { s with count := c }

@[simp] theorem withCount_count (c : BitVec 64) (s : State) : (withCount c s).count = c := rfl
@[simp] theorem withCount_withCount (c c' : BitVec 64) (s : State) : withCount c (withCount c' s) = withCount c s := rfl
@[simp] theorem withCount_self (s : State) : withCount s.count s = s := rfl

/-- Bytes stored from index `lo` on. -/
def storeAt (lo : Nat) (p : List Byte) (s : State) : State := { s with buf := storeBytes s.buf lo p }

theorem storeAt_withCount (lo : Nat) (p : List Byte) (c : BitVec 64) (s : State) :
    storeAt lo p (withCount c s) = withCount c (storeAt lo p s) := rfl

/-- Bytes stored from index `lo` on, that complete the block. -/
def fillBlock (lo : Nat) (p : List Byte) (s : State) : State := compressBuf (storeAt lo p s)

/-- Completing a block does not look at `COUNT`. -/
theorem fillBlock_withCount (lo : Nat) (p : List Byte) (c : BitVec 64) (s : State) :
    fillBlock lo p (withCount c s) = withCount c (fillBlock lo p s) := by
  simp only [fillBlock, storeAt, withCount, compressBuf]

/-- The first `q` whole blocks of a payload, one after the other. -/
def fillBlocks (p : List Byte) (q : Nat) (s : State) : State :=
  (List.range q).foldl (fun u j => fillBlock 0 ((p.drop (64 * j)).take 64) u) s

theorem fillBlocks_succ (p : List Byte) (q : Nat) (s : State) :
    fillBlocks p (q + 1) s = fillBlock 0 ((p.drop (64 * q)).take 64) (fillBlocks p q s) := by
  rw [fillBlocks, List.range_succ, List.foldl_append]
  rfl

theorem blockwiseUpdate_of_lt {p : List Byte} {s : State} (h : fillLevel s + p.length < 64) :
    blockwiseUpdate p s = withCount (s.count + BitVec.ofNat 64 p.length) (storeAt (fillLevel s) p s) := by
  rw [blockwiseUpdate, if_pos h]
  rfl

/-- The block-wise form of a payload that fills its block: `k` bytes to its end, `q` whole blocks, and the rest. -/
theorem blockwiseUpdate_of_le {p : List Byte} {s : State} (h : 64 ≤ fillLevel s + p.length) {k q : Nat}
    (hk : k = 64 - fillLevel s) (hq : q = (p.length - k) / 64) :
    blockwiseUpdate p s = withCount (s.count + BitVec.ofNat 64 p.length) (storeAt 0 (p.drop (k + 64 * q))
      (fillBlocks (p.drop k) q (fillBlock (fillLevel s) (p.take k) s))) := by
  subst hq hk
  simp only [blockwiseUpdate, if_neg (Nat.not_lt.2 h), fillBlocks, fillBlock, storeAt, withCount, List.drop_drop]

/-! ## Absorbing, block by block -/

theorem count_add_add (c : BitVec 64) (n k : Nat) :
    c + BitVec.ofNat 64 n + BitVec.ofNat 64 k = c + BitVec.ofNat 64 (n + k) := by
  rw [BitVec.add_assoc, BitVec.ofNat_add]

/-- Bytes that stay in the block are stored. -/
theorem absorbAll_of_lt {p : List Byte} {s : State} (h : fillLevel s + p.length < 64) :
    absorbAll p s = withCount (s.count + BitVec.ofNat 64 p.length) (storeAt (fillLevel s) p s) := by
  induction p generalizing s with
  | nil => simp [storeAt, storeBytes]
  | cons b p ih =>
    rw [List.length_cons] at h
    have hstage := fillLevel_stage b s
    have hfill : fillLevel (stage b s) = fillLevel s + 1 := by omega
    rw [absorbAll_cons, absorb_of_fillLevel_ne (by omega), ih (by omega), hfill, List.length_cons,
      Nat.add_comm p.length, ← count_add_add]
    rfl

/-- Bytes that just fill the block are stored, and the block compressed. -/
theorem absorbAll_of_eq {p : List Byte} {s : State} (h : fillLevel s + p.length = 64) :
    absorbAll p s = withCount (s.count + BitVec.ofNat 64 p.length) (fillBlock (fillLevel s) p s) := by
  have hlt := fillLevel_lt s
  induction p generalizing s with
  | nil => rw [List.length_nil] at h; omega
  | cons b p ih =>
    rw [List.length_cons] at h
    have hstage := fillLevel_stage b s
    rw [absorbAll_cons]
    by_cases hfull : fillLevel s = 63
    · have hnil : p = [] := List.length_eq_zero_iff.1 (by omega)
      rw [absorb_of_fillLevel_eq hfull, hnil, absorbAll_nil]
      simp only [compressBuf, stage, fillBlock, storeAt, withCount, storeBytes, List.length_singleton]
    · have hfill : fillLevel (stage b s) = fillLevel s + 1 := by omega
      rw [absorb_of_fillLevel_ne hfull, ih (by omega) (by omega), hfill, List.length_cons, Nat.add_comm p.length,
        ← count_add_add]
      simp only [compressBuf, stage, fillBlock, storeAt, withCount, storeBytes]

/-- From an empty block on, whole blocks are stored and compressed. -/
theorem absorbAll_take_blocks (p : List Byte) {q : Nat} {c : BitVec 64} (s : State) (hp : 64 * q ≤ p.length)
    (hc : c.toNat % 64 = 0) :
    absorbAll (p.take (64 * q)) (withCount c s) = withCount (c + BitVec.ofNat 64 (64 * q)) (fillBlocks p q s) := by
  induction q with
  | zero => simp [fillBlocks]
  | succ q ih =>
    have hblock : ((p.drop (64 * q)).take 64).length = 64 := List.length_take_of_le (by rw [List.length_drop]; omega)
    have hfill : fillLevel (withCount (c + BitVec.ofNat 64 (64 * q)) (fillBlocks p q s)) = 0 := by
      simp only [fillLevel, Config.block, withCount_count, BitVec.toNat_add, BitVec.toNat_ofNat]
      omega
    rw [Nat.mul_succ, List.take_add, absorbAll_append, ih (by omega), absorbAll_of_eq (by omega), hfill,
      fillBlock_withCount, withCount_withCount, withCount_count, hblock, count_add_add, fillBlocks_succ]

/-- The block-wise form absorbs the payload, whatever `BUF` holds. -/
theorem blockwiseUpdate_eq_absorbAll (p : List Byte) (s : State) : blockwiseUpdate p s = absorbAll p s := by
  have hlt := fillLevel_lt s
  by_cases h : fillLevel s + p.length < 64
  · rw [absorbAll_of_lt h, blockwiseUpdate_of_lt h]
  · obtain ⟨k, hk⟩ : ∃ k, k = 64 - fillLevel s := ⟨_, rfl⟩
    obtain ⟨q, hq⟩ : ∃ q, q = (p.length - k) / 64 := ⟨_, rfl⟩
    rw [blockwiseUpdate_of_le (by omega) hk hq]
    have hfirst : (p.take k).length = k := List.length_take_of_le (by omega)
    have hlast : (p.drop (k + 64 * q)).length < 64 := by rw [List.length_drop]; omega
    have hempty : (s.count + BitVec.ofNat 64 k).toNat % 64 = 0 := by
      simp only [fillLevel, Config.block] at hk
      rw [BitVec.toNat_add, BitVec.toNat_ofNat]
      omega
    have hfill (u : State) : fillLevel (withCount (s.count + BitVec.ofNat 64 (k + 64 * q)) u) = 0 := by
      rw [← count_add_add]
      simp only [fillLevel, Config.block, withCount_count]
      rw [BitVec.toNat_add, BitVec.toNat_ofNat]
      omega
    have hparts : p = p.take k ++ ((p.drop k).take (64 * q) ++ p.drop (k + 64 * q)) := by
      rw [← List.drop_drop, List.take_append_drop, List.take_append_drop]
    have hlength : k + 64 * q + (p.drop (k + 64 * q)).length = p.length := by rw [List.length_drop]; omega
    symm
    calc absorbAll p s
        = absorbAll (p.drop (k + 64 * q)) (absorbAll ((p.drop k).take (64 * q)) (absorbAll (p.take k) s)) := by
          rw [← absorbAll_append, ← absorbAll_append, ← hparts]
      _ = absorbAll (p.drop (k + 64 * q)) (withCount (s.count + BitVec.ofNat 64 (k + 64 * q))
            (fillBlocks (p.drop k) q (fillBlock (fillLevel s) (p.take k) s))) := by
          rw [absorbAll_of_eq (p := p.take k) (by omega), hfirst,
            absorbAll_take_blocks _ _ (by rw [List.length_drop]; omega) hempty, count_add_add]
      _ = _ := by
          rw [absorbAll_of_lt (by rw [hfill]; omega), hfill, withCount_count, count_add_add, hlength,
            storeAt_withCount, withCount_withCount]

end Sys2Proof.Machine

namespace Sys2Proof.Proofs
open Sys2Proof.Machine

/-- Settles O26: the payload is cut where its bytes fill a block, and absorbed part by part. -/
theorem blockwiseUpdateAgrees : Obligations.BlockwiseUpdateAgrees := by
  unfold Obligations.BlockwiseUpdateAgrees
  exact fun p s _ => blockwiseUpdate_eq_absorbAll p s

end Sys2Proof.Proofs
end

section
/-! SUPPORT. Other forms of the compression round's parts (00_scope.md R9, 43_compression_round.md R146, R150), and the
length field FINISH writes. -/

namespace Sys2Proof.Machine

/-! ## Rotation (00_scope.md R9) -/

theorem getLsbD_rotl (x : Word) {n i : Nat} (hn : n < 32) (hi : i < 32) :
    (rotl x n).getLsbD i = if i < n then x.getLsbD (32 - n + i) else x.getLsbD (i - n) := by
  rw [rotl, BitVec.getLsbD_rotateLeft, Nat.mod_eq_of_lt hn]
  simp [hi]

theorem rotl_getLsbD_add_mod (x : Word) {n i : Nat} (hn : n < 32) (hi : i < 32) :
    (rotl x n).getLsbD ((i + n) % 32) = x.getLsbD i := by
  rw [getLsbD_rotl x hn (Nat.mod_lt _ (by decide))]
  split <;> congr 1 <;> omega

theorem rotl_eq_shift (x : Word) {n : Nat} (hn : n < 32) : rotl x n = x <<< n ||| x >>> (32 - n) := by
  rw [rotl, BitVec.rotateLeft_eq_rotateLeftAux_of_lt hn, BitVec.rotateLeftAux]

/-! ## The round functions (43_compression_round.md R145, R146) -/

theorem getLsbD_ch (b c d : Word) {i : Nat} (hi : i < 32) :
    (ch b c d).getLsbD i = if b.getLsbD i then c.getLsbD i else d.getLsbD i := by
  rw [ch, BitVec.getLsbD_or, BitVec.getLsbD_and, BitVec.getLsbD_and, BitVec.getLsbD_not, decide_eq_true hi]
  cases b.getLsbD i <;> simp

theorem getLsbD_parity (b c d : Word) (i : Nat) :
    (parity b c d).getLsbD i = (b.getLsbD i ^^ c.getLsbD i ^^ d.getLsbD i) := by
  rw [parity, BitVec.getLsbD_xor, BitVec.getLsbD_xor]

theorem getLsbD_maj (b c d : Word) (i : Nat) :
    (maj b c d).getLsbD i =
      (b.getLsbD i && c.getLsbD i || b.getLsbD i && d.getLsbD i || c.getLsbD i && d.getLsbD i) := by
  simp only [maj, BitVec.getLsbD_or, BitVec.getLsbD_and]

/-- Three bits have odd parity when one or three of them are set. -/
theorem xor_three_eq_decide (x y z : Bool) :
    (x ^^ y ^^ z) = decide (x.toNat + y.toNat + z.toNat = 1 ∨ x.toNat + y.toNat + z.toNat = 3) := by
  revert x y z
  decide

/-- Three bits have a majority when two of them are set. -/
theorem majority_eq_decide (x y z : Bool) :
    (x && y || x && z || y && z) = decide (2 ≤ x.toNat + y.toNat + z.toNat) := by
  revert x y z
  decide

theorem ch_eq_xor (b c d : Word) : ch b c d = d ^^^ (b &&& (c ^^^ d)) := by
  apply BitVec.eq_of_getLsbD_eq
  intro i hi
  rw [getLsbD_ch b c d hi, BitVec.getLsbD_xor, BitVec.getLsbD_and, BitVec.getLsbD_xor]
  cases b.getLsbD i <;> cases c.getLsbD i <;> simp

theorem maj_eq_or (b c d : Word) : maj b c d = (b &&& c) ||| (d &&& (b ||| c)) := by
  rw [maj, BitVec.and_or_distrib_left, BitVec.or_assoc, BitVec.and_comm d b, BitVec.and_comm d c]

theorem maj_eq_xor (b c d : Word) : maj b c d = (b &&& c) ^^^ (b &&& d) ^^^ (c &&& d) := by
  apply BitVec.eq_of_getLsbD_eq
  intro i _
  simp only [getLsbD_maj, BitVec.getLsbD_xor, BitVec.getLsbD_and]
  cases b.getLsbD i <;> cases c.getLsbD i <;> simp

/-! ## The circular buffer (43_compression_round.md R150) -/

/-- Before round `t`, place `i mod 16` of the circular buffer holds `W[i]`, for the 16 newest of the words so far. -/
def HoldsNewest (w : List Word) (m : List Byte) (t : Nat) : Prop :=
  w.length = 16 ∧ ∀ i, i < max t 16 → max t 16 ≤ i + 16 → w.getD (i % 16) 0 = (schedule m).getD i 0

theorem holdsNewest_loadWords {m : List Byte} (hm : m.length = 64) : HoldsNewest (loadWords m) m 0 := by
  refine ⟨by rw [loadWords_length, hm], fun i hi _ => ?_⟩
  have hi : i < 16 := by simpa using hi
  rw [schedule_getD_of_lt hm hi, Nat.mod_eq_of_lt hi]

/-- A word replaced at its place, the others kept. -/
theorem getD_set_of_lt (w : List Word) {j : Nat} (hj : j < w.length) (x : Word) (i : Nat) :
    (w.set j x).getD i 0 = if i = j then x else w.getD i 0 := by
  simp only [List.getD_eq_getElem?_getD, List.getElem?_set]
  by_cases h : j = i
  · simp [h, h ▸ hj]
  · simp [h, Ne.symm h]

/-- Round `t` of the circular form runs `Round` with `W[t]`, which is then among the newest words. -/
theorem ringRound_eq {m : List Byte} (hm : m.length = 64) {w : List Word} {t : Nat} (ht : t < 80)
    (h : HoldsNewest w m t) (v : WorkVars) :
    (ringRound (v, w) t).1 = roundStep t v ((schedule m).getD t 0) ∧ HoldsNewest (ringRound (v, w) t).2 m (t + 1) := by
  obtain ⟨hlen, hw⟩ := h
  by_cases hlt : t < 16
  · have hring : ringRound (v, w) t = (roundStep t v (w.getD (t % 16) 0), w) := by simp only [ringRound, if_pos hlt]
    rw [hring]
    refine ⟨?_, hlen, fun i hi hi' => hw i (by omega) (by omega)⟩
    rw [hw t (by omega) (by omega)]
  · have hnext : rotl (w.getD ((t - 3) % 16) 0 ^^^ w.getD ((t - 8) % 16) 0 ^^^ w.getD ((t - 14) % 16) 0 ^^^
        w.getD (t % 16) 0) 1 = (schedule m).getD t 0 := by
      have hoverwritten : t % 16 = (t - 16) % 16 := by omega
      rw [schedule_getD_of_le hm (by omega) ht, hoverwritten, hw (t - 3) (by omega) (by omega),
        hw (t - 8) (by omega) (by omega), hw (t - 14) (by omega) (by omega), hw (t - 16) (by omega) (by omega)]
    have hread := getD_set_of_lt w (j := t % 16) (by omega) ((schedule m).getD t 0)
    have hring : ringRound (v, w) t =
        (roundStep t v ((w.set (t % 16) ((schedule m).getD t 0)).getD (t % 16) 0),
          w.set (t % 16) ((schedule m).getD t 0)) := by
      simp only [ringRound, if_neg hlt, hnext]
    rw [hring]
    refine ⟨by rw [hread, if_pos rfl], by rw [List.length_set, hlen], fun i hi hi' => ?_⟩
    rw [hread]
    by_cases hit : i = t
    · rw [if_pos (by rw [hit]), hit]
    · rw [if_neg (by omega), hw i (by omega) (by omega)]

/-- After `t` rounds the circular form has the working variables of `Compress`. -/
theorem ringRounds_eq (h : Accumulator) {m : List Byte} (hm : m.length = 64) {t : Nat} (ht : t ≤ 80) :
    ((List.range t).foldl ringRound (loadVars h, loadWords m)).1 = varsAfter h m t ∧
      HoldsNewest ((List.range t).foldl ringRound (loadVars h, loadWords m)).2 m t := by
  induction t with
  | zero => exact ⟨(varsAfter_zero h m).symm, holdsNewest_loadWords hm⟩
  | succ t ih =>
    obtain ⟨hvars, hnewest⟩ := ih (by omega)
    obtain ⟨hround, hkept⟩ := ringRound_eq hm ht hnewest (varsAfter h m t)
    rw [List.range_succ, List.foldl_append, List.foldl_cons, List.foldl_nil, varsAfter_succ h hm ht, ← hround, ← hvars]
    rw [← hvars] at hkept
    exact ⟨rfl, hkept⟩

/-! ## The length field (40_stream_commands.md R105) -/

/-- Whatever the padding, FINISH writes the length field last. -/
theorem closeStream_buf_eq_memWrite {s : State} (hwf : s.buf.wf = true) :
    ∃ m : Memory, m.wf = true ∧ (closeStream s).buf = memWrite m 56 8 (bitLength s) := by
  have hlt := fillLevel_lt s
  have hmarked := Memory.write_wf (b := 0x80) hwf hlt
  rcases closeStream_cases s with ⟨hle, hbuf, -⟩ | ⟨hgt, first, rfl, hbuf, -⟩
  · exact ⟨_, zeroFill_wf hmarked _ _ (by omega), hbuf⟩
  · exact ⟨_, zeroFill_wf (zeroFill_wf hmarked _ _ (by omega)) 0 56 (by omega), hbuf⟩

/-- The bit length is exact below 2^61 bytes (10_state.md R23). -/
theorem bitLength_toNat {s : State} (h : s.count.toNat < 2 ^ 61) : (bitLength s).toNat = s.count.toNat * 8 := by
  rw [bitLength, BitVec.toNat_mul, BitVec.toNat_ofNat]
  omega

end Sys2Proof.Machine

namespace Sys2Proof.Proofs
open Sys2Proof.Machine

/-- Settles O14: the last write of FINISH is the length field. -/
theorem lengthFieldIsBigEndian : Obligations.LengthFieldIsBigEndian := by
  unfold Obligations.LengthFieldIsBigEndian
  intro s hwf hp hlt
  obtain ⟨m, hm, hbuf⟩ := closeStream_buf_eq_memWrite hwf
  refine ⟨_, bitLength s, exec_finish_of_opened hp, bitLength_toNat hlt, fun j hj => ?_⟩
  rw [respond_buf, hbuf, read_memWrite hm 56 8 _ (by decide), if_pos (by omega),
    show 8 * (8 - 1 - (56 + j - 56)) = 56 - 8 * j by omega]

/-- Settles O19: the bits of a rotation, and the two shifts it joins. -/
theorem rotlMovesEveryBit : Obligations.RotlMovesEveryBit := by
  unfold Obligations.RotlMovesEveryBit
  refine ⟨fun x n i _ hn hi => rotl_getLsbD_add_mod x hn hi, fun x n _ hn => rotl_eq_shift x hn, fun x => ?_⟩
  rw [rotl_eq_shift x (by decide), BitVec.or_comm]

/-- Settles O20: each function bit by bit, then the other forms by its bits. -/
theorem roundFunctionForms : Obligations.RoundFunctionForms := by
  unfold Obligations.RoundFunctionForms
  refine ⟨fun b c d i hi => ⟨getLsbD_ch b c d hi, ?_, ?_⟩,
    fun b c d => ⟨ch_eq_xor b c d, maj_eq_or b c d, maj_eq_xor b c d⟩⟩
  · rw [getLsbD_parity, xor_three_eq_decide]
  · rw [getLsbD_maj, majority_eq_decide]

/-- Settles O21: the circular buffer holds the 16 newest schedule words, all that the next one needs. -/
theorem ringScheduleEqualsCompress : Obligations.RingScheduleEqualsCompress := by
  unfold Obligations.RingScheduleEqualsCompress
  intro h M hM
  obtain ⟨hvars, -⟩ := ringRounds_eq h hM (t := 80) le_rfl
  rw [compressRing, hvars, compress_eq_addBack_varsAfter h hM]

end Sys2Proof.Proofs
end

section
/-! SUPPORT. The digest of a whole message (10_state.md section 6): the padded message's length, and a run of the
machine over a message cut into fragments. -/

namespace Sys2Proof.Machine

/-! ## The padded message -/

/-- `Pad(m)` is the whole number of blocks that `N + 9` bytes need (40_stream_commands.md R106). -/
theorem pad_length (m : List Byte) : (pad m).length = 64 * ((m.length + 9 + 63) / 64) := by
  simp only [pad, List.length_append, List.length_singleton, List.length_replicate, be64_length]
  omega

/-! ## A run, step by step -/

theorem run_succ_of_next {M : Host.Core} {s t : M.State} (h : M.step s = .next t) (k : Nat) :
    M.run (k + 1) s = M.run k t := by
  simp only [Host.Core.run, h]

theorem run_add {M : Host.Core} {s t : M.State} {k : Nat} (h : M.run k s = .next t) (n : Nat) :
    M.run (k + n) s = M.run n t := by
  induction k generalizing s with
  | zero =>
    have hst : s = t := Host.Outcome.next.inj h
    rw [Nat.zero_add, hst]
  | succ k ih =>
    rw [Nat.add_right_comm]
    cases hs : M.step s with
    | next u =>
      rw [run_succ_of_next hs] at h
      rw [run_succ_of_next hs, ih h]
    | fault | refused => simp [Host.Core.run, hs] at h

theorem run_succ_of_step {s t : State} (h : step s = .next t) (k : Nat) :
    Host.Core.run core (k + 1) s = Host.Core.run core k t := run_succ_of_next (M := core) h k

/-- The word of a command a word can carry is run as that command. -/
theorem step_of_encode {i : Instr} (hi : i.wellFormed = true) {s : State} {rest : List HostInput}
    (hin : s.inputs = .command (encode i) :: rest) : step s = exec i { s with inputs := rest } :=
  step_of_decode_ok hin (decode_encode hi)

/-! ## The commands of one message -/

/-- One UPDATE for each fragment (10_state.md R29). -/
def updateInputs (fragments : List (List Byte)) : List HostInput :=
  fragments.map fun p => .command (encode (.update p.length))

theorem messageInputs_eq (uc : Bool) (fragments : List (List Byte)) :
    messageInputs uc fragments = .command (encode (.init uc)) ::
      (updateInputs fragments ++ [.command (encode .finish), .command (encode .rdtext)]) := rfl

/-- What a stream shows while it holds the message `m`: the case and `ERR` as INIT left them, the inputs and
payload still offered, the responses so far. -/
structure StreamAt (uc : Bool) (m : List Byte) (inputs : List HostInput) (din : List Byte) (rsp : List Response)
    (s : State) : Prop where
  message : HoldsMessage m s
  uc : s.uc = uc
  err : s.err = 0
  inputs : s.inputs = inputs
  din : s.din = din
  rsp : s.rsp = rsp

/-- INIT starts the empty message, whatever the state. -/
theorem step_init {uc : Bool} {s : State} {rest : List HostInput}
    (hin : s.inputs = .command (encode (.init uc)) :: rest) :
    ∃ t, step s = .next t ∧ StreamAt uc [] rest s.din (s.rsp ++ [⟨.ok, []⟩]) t :=
  ⟨_, step_of_encode rfl hin, holdsMessage_initContext uc { s with inputs := rest }, rfl, rfl, rfl, rfl, rfl⟩

/-- UPDATE extends the message by its fragment. -/
theorem StreamAt.step_update {uc : Bool} {m p din : List Byte} {rest : List HostInput} {rsp : List Response} {s : State}
    (h : StreamAt uc m (.command (encode (.update p.length)) :: rest) (p ++ din) rsp s) (hp : p.length < 2 ^ 24)
    (hlt : m.length + p.length < 2 ^ 61) :
    ∃ t, step s = .next t ∧ StreamAt uc (m ++ p) rest din (rsp ++ [⟨.ok, []⟩]) t := by
  have hheld : HoldsMessage m { s with inputs := rest } := h.message
  have hl : p.length ≤ s.din.length := by rw [h.din, List.length_append]; omega
  have htake : s.din.take p.length = p := by rw [h.din, List.take_left]
  have hupdated := hheld.of_update hl hlt
  rw [htake] at hupdated
  refine ⟨_, ?_, hupdated, ?_, ?_, ?_, ?_, ?_⟩
  · rw [step_of_encode (i := .update p.length) (decide_eq_true hp) h.inputs,
      exec_update_of_lt hheld.phase_opened hl (by rwa [hheld.count_toNat]), htake]
  · simpa using h.uc
  · simpa using h.err
  · simp
  · simp [h.din]
  · simp [h.rsp]

/-- The UPDATEs of all fragments extend the message by them in order. -/
theorem StreamAt.run_updates {uc : Bool} {m din : List Byte} {fragments : List (List Byte)} {rest : List HostInput}
    {rsp : List Response} {s : State}
    (h : StreamAt uc m (updateInputs fragments ++ rest) (fragments.flatten ++ din) rsp s)
    (hp : ∀ p ∈ fragments, p.length < 2 ^ 24) (hlt : m.length + fragments.flatten.length < 2 ^ 61) :
    ∃ t, Host.Core.run core fragments.length s = .next t ∧
      StreamAt uc (m ++ fragments.flatten) rest din (rsp ++ List.replicate fragments.length ⟨.ok, []⟩) t := by
  induction fragments generalizing m rsp s with
  | nil => exact ⟨s, rfl, by simpa [updateInputs] using h⟩
  | cons p fragments ih =>
    rw [List.flatten_cons, List.length_append] at hlt
    rw [List.flatten_cons, List.append_assoc] at h
    obtain ⟨u, hu, hnext⟩ := h.step_update (hp p (by simp)) (by omega)
    obtain ⟨t, ht, hend⟩ := ih hnext (fun q hq => hp q (by simp [hq])) (by rw [List.length_append]; omega)
    refine ⟨t, by rw [List.length_cons, run_succ_of_step hu, ht], ?_⟩
    simpa [List.replicate_succ] using hend

/-- FINISH leaves the digest of the message. -/
theorem StreamAt.step_finish {uc : Bool} {m din : List Byte} {rest : List HostInput} {rsp : List Response} {s : State}
    (h : StreamAt uc m (.command (encode .finish) :: rest) din rsp s) :
    ∃ t, step s = .next t ∧ t.h = digestOf m ∧ t.phase = .final ∧ t.uc = uc ∧ t.err = 0 ∧ t.inputs = rest ∧
      t.din = din ∧ t.rsp = rsp ++ [⟨.ok, []⟩] := by
  have hheld : HoldsMessage m { s with inputs := rest } := h.message
  obtain ⟨hdigest, -⟩ := hheld.closeStream_eq
  refine ⟨_, (step_of_encode rfl h.inputs).trans (exec_finish_of_opened hheld.phase_opened), hdigest, ?_⟩
  simp [h.uc, h.err, h.din, h.rsp]

/-- RDTEXT of a finished message answers with its text. -/
theorem step_rdtext {s : State} {rest : List HostInput} (hp : s.phase = .final)
    (hin : s.inputs = .command (encode .rdtext) :: rest) :
    step s = .next (respond .ok (hexText s.h s.uc) { s with inputs := rest }) :=
  (step_of_encode rfl hin).trans (exec_rdtext_of_final (s := { s with inputs := rest }) hp)

end Sys2Proof.Machine

namespace Sys2Proof.Proofs
open Sys2Proof.Machine

/-- Settles O29: FINISH compresses the rest of the padded message, whose length is that of its blocks. -/
theorem finishHashesThePaddedMessage : Obligations.FinishHashesThePaddedMessage := by
  unfold Obligations.FinishHashesThePaddedMessage
  refine ⟨fun m s h => ?_, fun m => ?_⟩
  · obtain ⟨hdigest, hblocks, -⟩ := h.closeStream_eq
    have hlength := pad_length m
    have hadded := closeStream_blocks s
    rw [h.fillLevel_eq] at hadded
    refine ⟨_, exec_finish_of_opened h.phase_opened, closeStream_phase s, hdigest, ?_, closeStream_count s, ?_⟩
    · rw [respond_blocks, hblocks, hlength, Nat.mul_div_cancel_left _ (by decide)]
    · rw [respond_blocks, hadded]
      split <;> rfl
  · have hlength := pad_length m
    omega

/-- Settles O30: INIT, the UPDATEs one by one, FINISH and RDTEXT. -/
theorem fragmentsHashToTheDigest : Obligations.FragmentsHashToTheDigest := by
  unfold Obligations.FragmentsHashToTheDigest
  intro uc fragments s hp hlt hin hdin
  rw [messageInputs_eq] at hin
  obtain ⟨t₀, h₀, hstart⟩ := step_init hin
  rw [hdin, ← List.append_nil fragments.flatten] at hstart
  obtain ⟨t₁, h₁, hheld⟩ := hstart.run_updates hp (by simpa using hlt)
  obtain ⟨t₂, h₂, hdigest, hphase, huc, herr, hinputs, hempty, hrsp⟩ := hheld.step_finish
  have h₃ := step_rdtext hphase hinputs
  refine ⟨respond .ok (hexText t₂.h t₂.uc) { t₂ with inputs := [] }, ?_, hdigest, hphase, herr, rfl, hempty, ?_⟩
  · rw [run_succ_of_step h₀, run_add h₁, run_succ_of_step h₂, run_succ_of_step h₃]
    rfl
  · rw [List.replicate_succ, List.replicate_succ']
    simp [hrsp, hdigest, huc]

end Sys2Proof.Proofs
end

section
/-! SUPPORT. What the reads and the refusals leave alone: a successful read writes nothing, its text is the digest in
either case, and a refusal looks at `PHASE` and `COUNT` alone. -/

namespace Sys2Proof.Machine

/-! ## The reads (41_output_commands.md R125) -/

@[simp] theorem statusValue_respond (sel : Nat) (c : Code) (data : List Byte) (s : State) :
    statusValue sel (respond c data s) = statusValue sel s := rfl

/-- The one response two states have after the same responses. -/
theorem response_eq_of_append {rsp : List Response} {r r' : Response} (h : rsp ++ [r] = rsp ++ [r']) : r = r' := by
  simpa using h

/-- A read that answers `OK` has written nothing but its response, and answers so again. -/
theorem CommandAnswer.read_again {i : Instr} {s t : State} (h : CommandAnswer i s t)
    (hi : i = .rddig ∨ i = .rdtext ∨ ∃ sel, i = .rdsr sel) {data : List Byte} (hrsp : t.rsp = s.rsp ++ [⟨.ok, data⟩]) :
    t = respond .ok data s ∧ exec i t = .next (respond .ok data t) := by
  cases h with
  | rddigOpened | rdtextOpened | rdsrIllegal =>
    rw [refusedState_rsp] at hrsp
    cases response_eq_of_append hrsp
  | rddig _ hp =>
    cases response_eq_of_append hrsp
    exact ⟨rfl, exec_rddig_of_final hp⟩
  | rdtext _ hp =>
    cases response_eq_of_append hrsp
    exact ⟨rfl, exec_rdtext_of_final hp⟩
  | rdsr sel _ v _ hv =>
    cases response_eq_of_append hrsp
    exact ⟨rfl, exec_rdsr_of_some (by rwa [statusValue_respond])⟩
  | init | update | updateFinal | updateOverflow | finish | finishFinal | hasht | hashb => simp at hi

/-! ## The text in either case (41_output_commands.md R126) -/

theorem hexChar_true_eq_upperByte (v : BitVec 4) : hexChar v true = upperByte (hexChar v false) := by
  revert v
  decide

theorem hexDigit_hexChar (v : BitVec 4) (uc : Bool) : hexDigit (hexChar v uc) = v.setWidth 8 := by
  revert v uc
  decide

/-- A byte is its high nibble times 16 and its low nibble. -/
theorem nibbles_eq_byte (b : Byte) : (b.extractLsb' 4 4).setWidth 8 * 16 + (b.extractLsb' 0 4).setWidth 8 = b := by
  apply BitVec.eq_of_toNat_eq
  have hsixteen : (16 : Byte).toNat = 16 := rfl
  simp only [BitVec.toNat_add, BitVec.toNat_mul, BitVec.toNat_setWidth, BitVec.extractLsb'_toNat, hsixteen,
    Nat.shiftRight_eq_div_pow]
  omega

/-- A byte's two characters read back as the byte. -/
theorem unhex_byteText_append (uc : Bool) (b : Byte) (text : List Byte) :
    unhex (byteText uc b ++ text) = b :: unhex text := by
  rw [byteText, List.cons_append, List.cons_append, List.nil_append, unhex, hexDigit_hexChar, hexDigit_hexChar,
    nibbles_eq_byte]

theorem unhex_flatMap_byteText (uc : Bool) (bytes : List Byte) : unhex (bytes.flatMap (byteText uc)) = bytes := by
  induction bytes with
  | nil => rfl
  | cons b bytes ih => rw [List.flatMap_cons, unhex_byteText_append, ih]

theorem byteText_true_eq_map (b : Byte) : byteText true b = (byteText false b).map upperByte := by
  simp only [byteText, List.map_cons, List.map_nil, hexChar_true_eq_upperByte]

/-! ## `ERR` (10_state.md R27, 60_exceptions.md R170) -/

/-- `ERR` after a command that answers `OK`. -/
def errAfterOk : Instr → BitVec 4 → BitVec 4
  | .init _, _ => 0
  | .hasht _ _, _ => 0
  | .hashb _, _ => 0
  | .update _, e => e
  | .finish, e => e
  | .rddig, e => e
  | .rdtext, e => e
  | .rdsr _, e => e

theorem CommandAnswer.err_eq_of_ok {i : Instr} {s t : State} (h : CommandAnswer i s t)
    (hrsp : ∃ data, t.rsp = s.rsp ++ [⟨.ok, data⟩]) : t.err = errAfterOk i s.err := by
  obtain ⟨data, hrsp⟩ := hrsp
  cases h with
  | updateFinal | updateOverflow | finishFinal | rddigOpened | rdtextOpened | rdsrIllegal =>
    rw [refusedState_rsp] at hrsp
    cases response_eq_of_append hrsp
  | init | update | finish | rddig | rdtext | hasht | hashb | rdsr => simp [errAfterOk]

/-! ## The finished digest (10_state.md R30) -/

/-- In `FINAL`, a command that starts no message leaves the digest and its case. -/
theorem CommandAnswer.digest_eq_of_final {i : Instr} {s t : State} (h : CommandAnswer i s t) (hp : s.phase = .final)
    (hinit : ∀ uc, i ≠ .init uc) (hhasht : ∀ uc len, i ≠ .hasht uc len) (hhashb : ∀ len, i ≠ .hashb len) :
    t.h = s.h ∧ t.uc = s.uc ∧ t.phase = .final := by
  cases h with
  | init uc => exact absurd rfl (hinit uc)
  | hasht uc len => exact absurd rfl (hhasht uc len)
  | hashb len => exact absurd rfl (hhashb len)
  | update _ _ hopen | updateOverflow _ _ hopen =>
    rw [hp] at hopen
    cases hopen
  | finish _ hopen | rddigOpened _ hopen | rdtextOpened _ hopen =>
    rw [hp] at hopen
    cases hopen
  | updateFinal | finishFinal | rdsrIllegal => simp [refusedState, hp]
  | rddig | rdtext | rdsr => simp [hp]

/-- The code of a command's response is a matter of `PHASE` and `COUNT` (00_scope.md R12). -/
theorem commandCode_congr {s s' : State} (hphase : s'.phase = s.phase) (hcount : s'.count = s.count) (i : Instr) :
    commandCode i s' = commandCode i s := by
  rw [commandCode, commandCode, hphase, hcount]

end Sys2Proof.Machine

namespace Sys2Proof.Proofs
open Sys2Proof.Machine

/-- Settles O35: a successful read leaves the state it found with one response more, which shows in no read. -/
theorem readsAreIdempotent : Obligations.ReadsAreIdempotent := by
  unfold Obligations.ReadsAreIdempotent
  intro c s t data hc ht hrsp
  obtain ⟨rfl, hagain⟩ := (exec_next ht).read_again hc hrsp
  exact ⟨sameContext_respond .., _, hagain, by simp [SameContext, SameButErr], rfl⟩

/-- Settles O36: character by character in either case, and byte by byte back. -/
theorem textCaseIndependence : Obligations.TextCaseIndependence := by
  unfold Obligations.TextCaseIndependence
  refine fun h => ⟨?_, fun uc => unhex_flatMap_byteText uc (digestBytes h)⟩
  rw [hexText, hexText, List.map_flatMap]
  exact congrArg (digestBytes h).flatMap (funext byteText_true_eq_map)

/-- Settles O45: a refusal records the first code, and an `OK` leaves `ERR` or clears it. -/
theorem errorFieldLifeCycle : Obligations.ErrorFieldLifeCycle := by
  unfold Obligations.ErrorFieldLifeCycle
  intro i s t ht
  have ha := exec_next ht
  obtain ⟨r, hrsp, -, hrefused⟩ := ha.answeredWith
  refine ⟨r, hrsp, ?_⟩
  by_cases hok : r.code = .ok
  · obtain ⟨code, data⟩ := r
    subst hok
    rw [ha.err_eq_of_ok ⟨data, hrsp⟩, if_neg (by simp)]
    cases i <;> rfl
  · obtain ⟨-, herr, -⟩ := hrefused hok
    rw [herr, if_pos hok]

/-- Settles O47: the code of a response is `commandCode`. -/
theorem refusalIgnoresThePayload : Obligations.RefusalIgnoresThePayload := by
  unfold Obligations.RefusalIgnoresThePayload
  intro i s s' t hphase hcount hlength ht
  obtain ⟨r, hrsp, hcode, -⟩ := (exec_next ht).answeredWith
  obtain ⟨t', ht', r', hrsp', hcode', -⟩ := exec_answeredWith i (s := s') (hlength ▸ payload_of_exec_next ht)
  exact ⟨t', r, r', ht', hrsp, hrsp', by rw [hcode, hcode', commandCode_congr hphase hcount]⟩

/-- Settles O51: the steps that can be taken from `FINAL`, the excluded ones apart, are idle, reads and refusals. -/
theorem digestIsImmutable : Obligations.DigestIsImmutable := by
  unfold Obligations.DigestIsImmutable
  intro s t hp hstep hreset hcommand
  cases step_next hstep with
  | idle => exact ⟨rfl, rfl, hp⟩
  | reset rest hin => exact absurd hin (hreset rest)
  | command w rest i _ hin hd ha =>
    obtain ⟨hinit, hhasht, hhashb⟩ := hcommand w rest hin
    exact ha.digest_eq_of_final hp (fun uc hi => hinit uc (hi ▸ hd)) (fun uc len hi => hhasht uc len (hi ▸ hd))
      (fun len hi => hhashb len (hi ▸ hd))
  | illegalWord => simp [refusedState, hp]

end Sys2Proof.Proofs
end
